-- ==== Sys2Proof/Word.lean ====
section
/-! DEFINITION. The two word types of the core (00_scope.md R7): a Byte is 8 bits, a Word 16 bits.
An Address is a Word, always unsigned and wrapping modulo 65536, so `+` on Word is the spec's `+16` (R9). -/

namespace Sys2Proof

/-- A Byte: 8 bits, unsigned (R7). -/
abbrev Byte := BitVec 8

/-- A Word or Address: 16 bits, unsigned; its `+` is the spec's `+16`, addition modulo 65536 (R7, R9). -/
abbrev Word := BitVec 16

end Sys2Proof
end

