-- ==== Sys2Proof/Syntax.lean ====
section
/-! DEFINITION. Syntax. `Instr` has one constructor for each row of spec/opcode_table.json (30_encoding.md R80).
A row is a concrete opcode: its registers are fixed, and its operand bytes (n, d, nn) are no part of the opcode:
the instruction reads them from the Bus when it runs (R79, R100), so a constructor has no fields.
`Asm` is an assembled instruction: an opcode together with its operand bytes (R73, R85). -/

namespace Sys2Proof

/-- The byte registers a load names as r or r' (R74, R101): B, C, D, E, H, L and A. -/
inductive Reg8 where
  | b | c | d | e | h | l | a
  deriving DecidableEq, Repr

/-- The 95 admitted opcodes, in the order of spec/opcode_table.json. `at` reads as the parentheses of the
Zilog spelling: `ld_B_atHL` is LD B,(HL), `ld_atnn_A` is LD (nn),A (R85). -/
inductive Instr where
  -- R101: LD r,r'
  | ld_B_B
  | ld_B_C
  | ld_B_D
  | ld_B_E
  | ld_B_H
  | ld_B_L
  | ld_B_A
  | ld_C_B
  | ld_C_C
  | ld_C_D
  | ld_C_E
  | ld_C_H
  | ld_C_L
  | ld_C_A
  | ld_D_B
  | ld_D_C
  | ld_D_D
  | ld_D_E
  | ld_D_H
  | ld_D_L
  | ld_D_A
  | ld_E_B
  | ld_E_C
  | ld_E_D
  | ld_E_E
  | ld_E_H
  | ld_E_L
  | ld_E_A
  | ld_H_B
  | ld_H_C
  | ld_H_D
  | ld_H_E
  | ld_H_H
  | ld_H_L
  | ld_H_A
  | ld_L_B
  | ld_L_C
  | ld_L_D
  | ld_L_E
  | ld_L_H
  | ld_L_L
  | ld_L_A
  | ld_A_B
  | ld_A_C
  | ld_A_D
  | ld_A_E
  | ld_A_H
  | ld_A_L
  | ld_A_A
  -- R102: LD r,n
  | ld_B_n
  | ld_C_n
  | ld_D_n
  | ld_E_n
  | ld_H_n
  | ld_L_n
  | ld_A_n
  -- R103: LD r,(HL)
  | ld_B_atHL
  | ld_C_atHL
  | ld_D_atHL
  | ld_E_atHL
  | ld_H_atHL
  | ld_L_atHL
  | ld_A_atHL
  -- R104: LD A,(BC)
  | ld_A_atBC
  -- R105: LD A,(DE)
  | ld_A_atDE
  -- R106: LD r,(IX+d)
  | ld_B_atIX
  | ld_C_atIX
  | ld_D_atIX
  | ld_E_atIX
  | ld_H_atIX
  | ld_L_atIX
  | ld_A_atIX
  -- R107: LD r,(IY+d)
  | ld_B_atIY
  | ld_C_atIY
  | ld_D_atIY
  | ld_E_atIY
  | ld_H_atIY
  | ld_L_atIY
  | ld_A_atIY
  -- R108: LD (HL),r
  | ld_atHL_B
  | ld_atHL_C
  | ld_atHL_D
  | ld_atHL_E
  | ld_atHL_H
  | ld_atHL_L
  | ld_atHL_A
  -- R109: LD (BC),A
  | ld_atBC_A
  -- R110: LD (DE),A
  | ld_atDE_A
  -- R111: LD (HL),n
  | ld_atHL_n
  -- R112: LD (IX+d),n
  | ld_atIX_n
  -- R113: LD (IY+d),n
  | ld_atIY_n
  -- R114: LD A,(nn)
  | ld_A_atnn
  -- R115: LD (nn),A
  | ld_atnn_A
  -- R116: LD A,I
  | ld_A_I
  -- R117: LD A,R
  | ld_A_R
  deriving DecidableEq, Repr

/-- The 17 instruction forms of R3, with the registers a form ranges over. -/
inductive Form where
  /-- LD r,r' (R101) -/
  | ldRR (r r' : Reg8)
  /-- LD r,n (R102) -/
  | ldRN (r : Reg8)
  /-- LD r,(HL) (R103) -/
  | ldRHL (r : Reg8)
  /-- LD A,(BC) (R104) -/
  | ldABC
  /-- LD A,(DE) (R105) -/
  | ldADE
  /-- LD r,(IX+d) (R106) -/
  | ldRIX (r : Reg8)
  /-- LD r,(IY+d) (R107) -/
  | ldRIY (r : Reg8)
  /-- LD (HL),r (R108) -/
  | ldHLR (r : Reg8)
  /-- LD (BC),A (R109) -/
  | ldBCA
  /-- LD (DE),A (R110) -/
  | ldDEA
  /-- LD (HL),n (R111) -/
  | ldHLN
  /-- LD (IX+d),n (R112) -/
  | ldIXN
  /-- LD (IY+d),n (R113) -/
  | ldIYN
  /-- LD A,(nn) (R114) -/
  | ldANN
  /-- LD (nn),A (R115) -/
  | ldNNA
  /-- LD A,I (R116) -/
  | ldAI
  /-- LD A,R (R117) -/
  | ldAR
  deriving DecidableEq, Repr

/-- The form each opcode is an instance of (R80, the "form" column of spec/opcode_table.json). -/
def Instr.form : Instr → Form
  | .ld_B_B => .ldRR .b .b
  | .ld_B_C => .ldRR .b .c
  | .ld_B_D => .ldRR .b .d
  | .ld_B_E => .ldRR .b .e
  | .ld_B_H => .ldRR .b .h
  | .ld_B_L => .ldRR .b .l
  | .ld_B_A => .ldRR .b .a
  | .ld_C_B => .ldRR .c .b
  | .ld_C_C => .ldRR .c .c
  | .ld_C_D => .ldRR .c .d
  | .ld_C_E => .ldRR .c .e
  | .ld_C_H => .ldRR .c .h
  | .ld_C_L => .ldRR .c .l
  | .ld_C_A => .ldRR .c .a
  | .ld_D_B => .ldRR .d .b
  | .ld_D_C => .ldRR .d .c
  | .ld_D_D => .ldRR .d .d
  | .ld_D_E => .ldRR .d .e
  | .ld_D_H => .ldRR .d .h
  | .ld_D_L => .ldRR .d .l
  | .ld_D_A => .ldRR .d .a
  | .ld_E_B => .ldRR .e .b
  | .ld_E_C => .ldRR .e .c
  | .ld_E_D => .ldRR .e .d
  | .ld_E_E => .ldRR .e .e
  | .ld_E_H => .ldRR .e .h
  | .ld_E_L => .ldRR .e .l
  | .ld_E_A => .ldRR .e .a
  | .ld_H_B => .ldRR .h .b
  | .ld_H_C => .ldRR .h .c
  | .ld_H_D => .ldRR .h .d
  | .ld_H_E => .ldRR .h .e
  | .ld_H_H => .ldRR .h .h
  | .ld_H_L => .ldRR .h .l
  | .ld_H_A => .ldRR .h .a
  | .ld_L_B => .ldRR .l .b
  | .ld_L_C => .ldRR .l .c
  | .ld_L_D => .ldRR .l .d
  | .ld_L_E => .ldRR .l .e
  | .ld_L_H => .ldRR .l .h
  | .ld_L_L => .ldRR .l .l
  | .ld_L_A => .ldRR .l .a
  | .ld_A_B => .ldRR .a .b
  | .ld_A_C => .ldRR .a .c
  | .ld_A_D => .ldRR .a .d
  | .ld_A_E => .ldRR .a .e
  | .ld_A_H => .ldRR .a .h
  | .ld_A_L => .ldRR .a .l
  | .ld_A_A => .ldRR .a .a
  | .ld_B_n => .ldRN .b
  | .ld_C_n => .ldRN .c
  | .ld_D_n => .ldRN .d
  | .ld_E_n => .ldRN .e
  | .ld_H_n => .ldRN .h
  | .ld_L_n => .ldRN .l
  | .ld_A_n => .ldRN .a
  | .ld_B_atHL => .ldRHL .b
  | .ld_C_atHL => .ldRHL .c
  | .ld_D_atHL => .ldRHL .d
  | .ld_E_atHL => .ldRHL .e
  | .ld_H_atHL => .ldRHL .h
  | .ld_L_atHL => .ldRHL .l
  | .ld_A_atHL => .ldRHL .a
  | .ld_A_atBC => .ldABC
  | .ld_A_atDE => .ldADE
  | .ld_B_atIX => .ldRIX .b
  | .ld_C_atIX => .ldRIX .c
  | .ld_D_atIX => .ldRIX .d
  | .ld_E_atIX => .ldRIX .e
  | .ld_H_atIX => .ldRIX .h
  | .ld_L_atIX => .ldRIX .l
  | .ld_A_atIX => .ldRIX .a
  | .ld_B_atIY => .ldRIY .b
  | .ld_C_atIY => .ldRIY .c
  | .ld_D_atIY => .ldRIY .d
  | .ld_E_atIY => .ldRIY .e
  | .ld_H_atIY => .ldRIY .h
  | .ld_L_atIY => .ldRIY .l
  | .ld_A_atIY => .ldRIY .a
  | .ld_atHL_B => .ldHLR .b
  | .ld_atHL_C => .ldHLR .c
  | .ld_atHL_D => .ldHLR .d
  | .ld_atHL_E => .ldHLR .e
  | .ld_atHL_H => .ldHLR .h
  | .ld_atHL_L => .ldHLR .l
  | .ld_atHL_A => .ldHLR .a
  | .ld_atBC_A => .ldBCA
  | .ld_atDE_A => .ldDEA
  | .ld_atHL_n => .ldHLN
  | .ld_atIX_n => .ldIXN
  | .ld_atIY_n => .ldIYN
  | .ld_A_atnn => .ldANN
  | .ld_atnn_A => .ldNNA
  | .ld_A_I => .ldAI
  | .ld_A_R => .ldAR

/-- The opcode of a form with its registers: the inverse of `Instr.form` (R80). -/
def Form.instr : Form → Instr
  | .ldRR .b .b => .ld_B_B
  | .ldRR .b .c => .ld_B_C
  | .ldRR .b .d => .ld_B_D
  | .ldRR .b .e => .ld_B_E
  | .ldRR .b .h => .ld_B_H
  | .ldRR .b .l => .ld_B_L
  | .ldRR .b .a => .ld_B_A
  | .ldRR .c .b => .ld_C_B
  | .ldRR .c .c => .ld_C_C
  | .ldRR .c .d => .ld_C_D
  | .ldRR .c .e => .ld_C_E
  | .ldRR .c .h => .ld_C_H
  | .ldRR .c .l => .ld_C_L
  | .ldRR .c .a => .ld_C_A
  | .ldRR .d .b => .ld_D_B
  | .ldRR .d .c => .ld_D_C
  | .ldRR .d .d => .ld_D_D
  | .ldRR .d .e => .ld_D_E
  | .ldRR .d .h => .ld_D_H
  | .ldRR .d .l => .ld_D_L
  | .ldRR .d .a => .ld_D_A
  | .ldRR .e .b => .ld_E_B
  | .ldRR .e .c => .ld_E_C
  | .ldRR .e .d => .ld_E_D
  | .ldRR .e .e => .ld_E_E
  | .ldRR .e .h => .ld_E_H
  | .ldRR .e .l => .ld_E_L
  | .ldRR .e .a => .ld_E_A
  | .ldRR .h .b => .ld_H_B
  | .ldRR .h .c => .ld_H_C
  | .ldRR .h .d => .ld_H_D
  | .ldRR .h .e => .ld_H_E
  | .ldRR .h .h => .ld_H_H
  | .ldRR .h .l => .ld_H_L
  | .ldRR .h .a => .ld_H_A
  | .ldRR .l .b => .ld_L_B
  | .ldRR .l .c => .ld_L_C
  | .ldRR .l .d => .ld_L_D
  | .ldRR .l .e => .ld_L_E
  | .ldRR .l .h => .ld_L_H
  | .ldRR .l .l => .ld_L_L
  | .ldRR .l .a => .ld_L_A
  | .ldRR .a .b => .ld_A_B
  | .ldRR .a .c => .ld_A_C
  | .ldRR .a .d => .ld_A_D
  | .ldRR .a .e => .ld_A_E
  | .ldRR .a .h => .ld_A_H
  | .ldRR .a .l => .ld_A_L
  | .ldRR .a .a => .ld_A_A
  | .ldRN .b => .ld_B_n
  | .ldRN .c => .ld_C_n
  | .ldRN .d => .ld_D_n
  | .ldRN .e => .ld_E_n
  | .ldRN .h => .ld_H_n
  | .ldRN .l => .ld_L_n
  | .ldRN .a => .ld_A_n
  | .ldRHL .b => .ld_B_atHL
  | .ldRHL .c => .ld_C_atHL
  | .ldRHL .d => .ld_D_atHL
  | .ldRHL .e => .ld_E_atHL
  | .ldRHL .h => .ld_H_atHL
  | .ldRHL .l => .ld_L_atHL
  | .ldRHL .a => .ld_A_atHL
  | .ldABC => .ld_A_atBC
  | .ldADE => .ld_A_atDE
  | .ldRIX .b => .ld_B_atIX
  | .ldRIX .c => .ld_C_atIX
  | .ldRIX .d => .ld_D_atIX
  | .ldRIX .e => .ld_E_atIX
  | .ldRIX .h => .ld_H_atIX
  | .ldRIX .l => .ld_L_atIX
  | .ldRIX .a => .ld_A_atIX
  | .ldRIY .b => .ld_B_atIY
  | .ldRIY .c => .ld_C_atIY
  | .ldRIY .d => .ld_D_atIY
  | .ldRIY .e => .ld_E_atIY
  | .ldRIY .h => .ld_H_atIY
  | .ldRIY .l => .ld_L_atIY
  | .ldRIY .a => .ld_A_atIY
  | .ldHLR .b => .ld_atHL_B
  | .ldHLR .c => .ld_atHL_C
  | .ldHLR .d => .ld_atHL_D
  | .ldHLR .e => .ld_atHL_E
  | .ldHLR .h => .ld_atHL_H
  | .ldHLR .l => .ld_atHL_L
  | .ldHLR .a => .ld_atHL_A
  | .ldBCA => .ld_atBC_A
  | .ldDEA => .ld_atDE_A
  | .ldHLN => .ld_atHL_n
  | .ldIXN => .ld_atIX_n
  | .ldIYN => .ld_atIY_n
  | .ldANN => .ld_A_atnn
  | .ldNNA => .ld_atnn_A
  | .ldAI => .ld_A_I
  | .ldAR => .ld_A_R

/-- The six byte layouts A to F of R73. -/
inductive Format where
  | fmtA | fmtB | fmtC | fmtD | fmtE | fmtF
  deriving DecidableEq, Repr

/-- The layout of each form (R73, last column). -/
def Form.format : Form → Format
  | .ldRR _ _ => .fmtA
  | .ldRN _ => .fmtB
  | .ldRHL _ => .fmtA
  | .ldABC => .fmtA
  | .ldADE => .fmtA
  | .ldRIX _ => .fmtE
  | .ldRIY _ => .fmtE
  | .ldHLR _ => .fmtA
  | .ldBCA => .fmtA
  | .ldDEA => .fmtA
  | .ldHLN => .fmtB
  | .ldIXN => .fmtF
  | .ldIYN => .fmtF
  | .ldANN => .fmtC
  | .ldNNA => .fmtC
  | .ldAI => .fmtD
  | .ldAR => .fmtD

/-- The layout of an opcode. -/
def Instr.format (i : Instr) : Format := i.form.format

/-- The full length in bytes of a layout (R73, R81): the amount every instruction of it passes to Step (R91). -/
def Format.length : Format → Nat
  | .fmtA => 1
  | .fmtB => 2
  | .fmtC => 3
  | .fmtD => 2
  | .fmtE => 3
  | .fmtF => 4

/-- How many of a layout's bytes are the opcode, those the decoder reads (R73, R79). -/
def Format.opcodeLength : Format → Nat
  | .fmtA | .fmtB | .fmtC => 1
  | .fmtD | .fmtE | .fmtF => 2

/-- The full length in bytes of an instruction, operand bytes included (R72). -/
def Instr.length (i : Instr) : Nat := i.format.length

/-- The operand bytes that follow an opcode (R76, R77, R78). -/
inductive Operands where
  /-- no operand bytes (layouts A and D) -/
  | none
  /-- an immediate byte n (layout B, R76) -/
  | imm (n : Byte)
  /-- a direct address nn, stored little-endian (layout C, R78) -/
  | addr (nn : Word)
  /-- a displacement byte d (layout E, R77) -/
  | disp (d : Byte)
  /-- a displacement byte d, then an immediate byte n (layout F, R76, R77) -/
  | dispImm (d n : Byte)
  deriving DecidableEq, Repr

/-- An assembled instruction: an opcode and its operand bytes. -/
structure Asm where
  instr : Instr
  operands : Operands
  deriving DecidableEq, Repr

end Sys2Proof
end

