-- ==== Sys2Proof/Config.lean ====
section
/-! DEFINITION. Configuration: the session parameters of 00_scope.md R8, and the values the spec gives to nobody
(20_memory.md R44: a component's read and write outside its range). -/

namespace Sys2Proof

/-- The number of byte locations of the one address space (R7, R42). -/
def Config.addressSpace : Nat := 65536

/-- FREE VALUE (log 7): what a component's `read` returns outside its range, by the component's bounds and the
address. R44 calls it "defined-but-irrelevant" and gives no value; the Bus never asks for it (R53). -/
opaque Config.outOfRangeRead : Nat → Nat → Nat → Byte

/-- FREE VALUE (log 7): what a component's store becomes when its `write` is called where `accept_write` is false
(R44, R49). The Bus never calls it there (R54). -/
opaque Config.outOfRangeWrite : List Host.Cell → Nat → Byte → List Host.Cell

/-- One component of the parameter BUS as the host supplies it (R8, R51): a RAM by its bounds, a ROM by its bounds
and its loader image ROM_IMAGE[k] (R50). Bounds are integers, not Addresses (R45). -/
inductive ComponentSpec where
  | ram (inclusiveStart exclusiveEnd : Nat)
  | rom (inclusiveStart exclusiveEnd : Nat) (image : List Byte)
  deriving DecidableEq, Repr

/-- The parameter DISPATCH (R8, R80): the default table, decoded by the procedure of R79, or another table given
as rows of opcode bytes and opcode. -/
inductive DispatchTable where
  | standard
  | custom (rows : List (List Byte × Instr))
  deriving DecidableEq, Repr

/-- The parameters that stay fixed for a whole session (R8). -/
structure Params where
  /-- STRICT_SINGLE_OWNER: overlapping component ranges are refused at construction (R51). -/
  strictSingleOwner : Bool
  /-- FAULT_ON_UNMAPPED: a step faults on an access no component covers (R119). -/
  faultOnUnmapped : Bool
  /-- CYCLES, where it differs from the defaults of R93, by opcode bytes: "a concrete opcode may declare a different
  literal cost, which the dispatch entry must carry verbatim" (R92). The first entry for an opcode's bytes counts
  (log 10). -/
  cycleOverrides : List (List Byte × Nat)
  /-- DISPATCH (R80). -/
  dispatch : DispatchTable
  deriving DecidableEq, Repr

/-- The defaults R8 gives the parameters. -/
def Params.default : Params where
  strictSingleOwner := false
  faultOnUnmapped := false
  cycleOverrides := []
  dispatch := .standard

end Sys2Proof
end

