-- ==== Sys2Proof/WellFormed.lean ====
section
/-! DEFINITION. Well-formedness: an assembled instruction has the operand bytes its layout has (30_encoding.md R73);
a component has bounds the spec admits (20_memory.md R51) and a ROM image of exactly its size (R50); with
STRICT_SINGLE_OWNER no two ranges overlap (R51); the rows of a DISPATCH table spell opcodes (R79, R80). -/

namespace Sys2Proof

/-- The operand bytes are those of the opcode's layout (R73). -/
def Asm.wf (x : Asm) : Bool :=
  match x.instr.format, x.operands with
  | .fmtA, .none => true
  | .fmtB, .imm _ => true
  | .fmtC, .addr _ => true
  | .fmtD, .none => true
  | .fmtE, .disp _ => true
  | .fmtF, .dispImm _ _ => true
  | _, _ => false

/-- Admitted bounds: `0 <= inclusiveStart <= exclusiveEnd <= 65536` (R51). -/
def boundsWf (start stop : Nat) : Bool :=
  decide (start ≤ stop) && decide (stop ≤ Config.addressSpace)

/-- No address lies in both ranges (R51). An empty range overlaps nothing. -/
def rangesDisjoint (start stop start' stop' : Nat) : Bool :=
  decide (min stop stop' ≤ max start start')

/-- The four prefix bytes (R75). -/
def isTablePrefix (b : Byte) : Bool :=
  b == 0xCB || b == 0xDD || b == 0xED || b == 0xFD

/-- The prefix bytes behind which the decoder reads byte 1 (R79). -/
def isDecodedPrefix (b : Byte) : Bool :=
  b == 0xDD || b == 0xED || b == 0xFD

/-- The bytes are an opcode the decode procedure can present to a table: one byte that is no prefix, or a byte
behind 0xDD, 0xED or 0xFD (R79). -/
def opcodeKeyWf (key : List Byte) : Bool :=
  match key with
  | [b0] => !isTablePrefix b0
  | [b0, _] => isDecodedPrefix b0
  | _ => false

/-- A DISPATCH table: every row's bytes are an opcode of the length its instruction's layout has, and no bytes
stand twice (R80, log 19). -/
def dispatchRowsWf : List (List Byte × Instr) → Bool
  | [] => true
  | (key, i) :: rows =>
    opcodeKeyWf key && key.length == i.format.opcodeLength
      && rows.all (fun row => row.1 != key) && dispatchRowsWf rows

/-- The DISPATCH parameter is well formed; the default table is. -/
def DispatchTable.wf : DispatchTable → Bool
  | .standard => true
  | .custom rows => dispatchRowsWf rows

end Sys2Proof
end

