-- ==== Sys2Proof/Decode.lean ====
section
/-! DEFINITION. Decoding and encoding (30_encoding.md): the bit fields of an opcode byte (R73, R74), the decode
procedure (R79) and its refusals (R82), the whole assembled instruction read from a list of bytes, and the encoder
written from the opcode table's byte column (R80). The byte-order and sign-extension helpers of R9, which the
machine shares, stand here too. -/

namespace Sys2Proof

/-! ### Bytes of a Word (R9) -/

/-- `v[7:0]`, the low byte. -/
def loByte (v : Word) : Byte := v.setWidth 8

/-- `v[15:8]`, the high byte. -/
def hiByte (v : Word) : Byte := (v >>> 8).setWidth 8

/-- `hi:lo`, the Word `hi*256 + lo` (R9, R18). -/
def wordOf (hi lo : Byte) : Word := (hi.setWidth 16 <<< 8) ||| lo.setWidth 16

/-- `sext_16(b)`: a Byte read as a two's-complement value, as a Word (R9). -/
def sext16 (b : Byte) : Word := b.signExtend 16

/-! ### Fields of an opcode byte (R73, R74) -/

/-- Bits [7:6]. -/
def topField (b : Byte) : BitVec 2 := (b >>> 6).setWidth 2

/-- Bits [5:3], the destination code ddd. -/
def dddField (b : Byte) : BitVec 3 := (b >>> 3).setWidth 3

/-- Bits [2:0], the source code sss. -/
def sssField (b : Byte) : BitVec 3 := b.setWidth 3

/-- `code` of R74. Code 110 is the memory operand (HL) and names no byte register. -/
def regOfCode (code : BitVec 3) : Option Reg8 :=
  if code = 0b000 then some .b
  else if code = 0b001 then some .c
  else if code = 0b010 then some .d
  else if code = 0b011 then some .e
  else if code = 0b100 then some .h
  else if code = 0b101 then some .l
  else if code = 0b111 then some .a
  else none

/-! ### The decode procedure (R79) -/

/-- The unprefixed part of R79's procedure: the form byte 0 selects by itself. -/
def decodeUnprefixed (b0 : Byte) : Option Form :=
  if topField b0 = 0b01 then
    match regOfCode (dddField b0), regOfCode (sssField b0) with
    | some r, some r' => some (.ldRR r r')
    | some r, none => some (.ldRHL r)
    | none, some r => some (.ldHLR r)
    | none, none => none
  else if topField b0 = 0b00 ∧ sssField b0 = 0b110 then
    match regOfCode (dddField b0) with
    | some r => some (.ldRN r)
    | none => some .ldHLN
  else if b0 = 0x0A then some .ldABC
  else if b0 = 0x1A then some .ldADE
  else if b0 = 0x02 then some .ldBCA
  else if b0 = 0x12 then some .ldDEA
  else if b0 = 0x3A then some .ldANN
  else if b0 = 0x32 then some .ldNNA
  else none

/-- The part of R79's procedure behind 0xDD and 0xFD: the form byte 1 selects, for the index register given by its
store form and its load form. -/
def decodeIndexed (store : Form) (load : Reg8 → Form) (b1 : Byte) : Option Form :=
  if b1 = 0x36 then some store
  else if topField b1 = 0b01 ∧ sssField b1 = 0b110 then (regOfCode (dddField b1)).map load
  else none

/-- The part of R79's procedure behind 0xED. -/
def decodeExtended (b1 : Byte) : Option Form :=
  if b1 = 0x57 then some .ldAI
  else if b1 = 0x5F then some .ldAR
  else none

/-- The part of R79's procedure behind a prefix byte: 0xDD selects IX, 0xFD selects IY (R75). -/
def decodePrefixed (b0 b1 : Byte) : Option Form :=
  if b0 = 0xDD then decodeIndexed .ldIXN .ldRIX b1
  else if b0 = 0xFD then decodeIndexed .ldIYN .ldRIY b1
  else if b0 = 0xED then decodeExtended b1
  else none

/-- The default dispatch of an opcode, given as the bytes R79 reads: byte 0 alone, or a prefix byte and byte 1.
`none` is the refusal of R82. A prefix byte alone is no opcode (R82: "every 0xCB sequence"). -/
def decodeOpcode (bytes : List Byte) : Option Instr :=
  match bytes with
  | [b0] => if isTablePrefix b0 then none else (decodeUnprefixed b0).map Form.instr
  | [b0, b1] => (decodePrefixed b0 b1).map Form.instr
  | _ => none

/-- The instruction a DISPATCH parameter gives to an opcode's bytes (R8, R80). -/
def dispatchLookup (table : DispatchTable) (bytes : List Byte) : Option Instr :=
  match table with
  | .standard => decodeOpcode bytes
  | .custom rows => rows.lookup bytes

/-! ### The whole instruction, from a list of bytes -/

/-- Why a list of bytes is no assembled instruction. -/
inductive DecodeError where
  /-- the opcode bytes R79 reads map to no form (R82) -/
  | unadmittedOpcode (bytes : List Byte)
  /-- the list ends inside the opcode or inside the operand bytes -/
  | truncated
  deriving DecidableEq, Repr

/-- The operand bytes of an opcode, by its layout (R73, R76 to R78), and the bytes behind them. -/
def takeOperands (i : Instr) (bytes : List Byte) : Except DecodeError (Asm × List Byte) :=
  match i.format, bytes with
  | .fmtA, rest => .ok (⟨i, .none⟩, rest)
  | .fmtB, n :: rest => .ok (⟨i, .imm n⟩, rest)
  | .fmtC, lo :: hi :: rest => .ok (⟨i, .addr (wordOf hi lo)⟩, rest)
  | .fmtD, rest => .ok (⟨i, .none⟩, rest)
  | .fmtE, d :: rest => .ok (⟨i, .disp d⟩, rest)
  | .fmtF, d :: n :: rest => .ok (⟨i, .dispImm d n⟩, rest)
  | _, _ => .error .truncated

/-- Reads one assembled instruction off a list of bytes, under the default dispatch table: its opcode by R79, its
operands by its layout. Total on any bytes; it rejects by name. -/
def decode (bytes : List Byte) : Except DecodeError (Asm × List Byte) :=
  match bytes with
  | [] => .error .truncated
  | b0 :: rest =>
    if isDecodedPrefix b0 then
      match rest with
      | [] => .error .truncated
      | b1 :: rest' =>
        match decodeOpcode [b0, b1] with
        | some i => takeOperands i rest'
        | none => .error (.unadmittedOpcode [b0, b1])
    else
      match decodeOpcode [b0] with
      | some i => takeOperands i rest
      | none => .error (.unadmittedOpcode [b0])

/-! ### The encoder -/

/-- The selecting bytes of each opcode (R80; the "match" column of spec/opcode_table.json). -/
def Instr.opcode : Instr → List Byte
  | .ld_B_B => [0x40]
  | .ld_B_C => [0x41]
  | .ld_B_D => [0x42]
  | .ld_B_E => [0x43]
  | .ld_B_H => [0x44]
  | .ld_B_L => [0x45]
  | .ld_B_A => [0x47]
  | .ld_C_B => [0x48]
  | .ld_C_C => [0x49]
  | .ld_C_D => [0x4A]
  | .ld_C_E => [0x4B]
  | .ld_C_H => [0x4C]
  | .ld_C_L => [0x4D]
  | .ld_C_A => [0x4F]
  | .ld_D_B => [0x50]
  | .ld_D_C => [0x51]
  | .ld_D_D => [0x52]
  | .ld_D_E => [0x53]
  | .ld_D_H => [0x54]
  | .ld_D_L => [0x55]
  | .ld_D_A => [0x57]
  | .ld_E_B => [0x58]
  | .ld_E_C => [0x59]
  | .ld_E_D => [0x5A]
  | .ld_E_E => [0x5B]
  | .ld_E_H => [0x5C]
  | .ld_E_L => [0x5D]
  | .ld_E_A => [0x5F]
  | .ld_H_B => [0x60]
  | .ld_H_C => [0x61]
  | .ld_H_D => [0x62]
  | .ld_H_E => [0x63]
  | .ld_H_H => [0x64]
  | .ld_H_L => [0x65]
  | .ld_H_A => [0x67]
  | .ld_L_B => [0x68]
  | .ld_L_C => [0x69]
  | .ld_L_D => [0x6A]
  | .ld_L_E => [0x6B]
  | .ld_L_H => [0x6C]
  | .ld_L_L => [0x6D]
  | .ld_L_A => [0x6F]
  | .ld_A_B => [0x78]
  | .ld_A_C => [0x79]
  | .ld_A_D => [0x7A]
  | .ld_A_E => [0x7B]
  | .ld_A_H => [0x7C]
  | .ld_A_L => [0x7D]
  | .ld_A_A => [0x7F]
  | .ld_B_n => [0x06]
  | .ld_C_n => [0x0E]
  | .ld_D_n => [0x16]
  | .ld_E_n => [0x1E]
  | .ld_H_n => [0x26]
  | .ld_L_n => [0x2E]
  | .ld_A_n => [0x3E]
  | .ld_B_atHL => [0x46]
  | .ld_C_atHL => [0x4E]
  | .ld_D_atHL => [0x56]
  | .ld_E_atHL => [0x5E]
  | .ld_H_atHL => [0x66]
  | .ld_L_atHL => [0x6E]
  | .ld_A_atHL => [0x7E]
  | .ld_A_atBC => [0x0A]
  | .ld_A_atDE => [0x1A]
  | .ld_B_atIX => [0xDD, 0x46]
  | .ld_C_atIX => [0xDD, 0x4E]
  | .ld_D_atIX => [0xDD, 0x56]
  | .ld_E_atIX => [0xDD, 0x5E]
  | .ld_H_atIX => [0xDD, 0x66]
  | .ld_L_atIX => [0xDD, 0x6E]
  | .ld_A_atIX => [0xDD, 0x7E]
  | .ld_B_atIY => [0xFD, 0x46]
  | .ld_C_atIY => [0xFD, 0x4E]
  | .ld_D_atIY => [0xFD, 0x56]
  | .ld_E_atIY => [0xFD, 0x5E]
  | .ld_H_atIY => [0xFD, 0x66]
  | .ld_L_atIY => [0xFD, 0x6E]
  | .ld_A_atIY => [0xFD, 0x7E]
  | .ld_atHL_B => [0x70]
  | .ld_atHL_C => [0x71]
  | .ld_atHL_D => [0x72]
  | .ld_atHL_E => [0x73]
  | .ld_atHL_H => [0x74]
  | .ld_atHL_L => [0x75]
  | .ld_atHL_A => [0x77]
  | .ld_atBC_A => [0x02]
  | .ld_atDE_A => [0x12]
  | .ld_atHL_n => [0x36]
  | .ld_atIX_n => [0xDD, 0x36]
  | .ld_atIY_n => [0xFD, 0x36]
  | .ld_A_atnn => [0x3A]
  | .ld_atnn_A => [0x32]
  | .ld_A_I => [0xED, 0x57]
  | .ld_A_R => [0xED, 0x5F]

/-- The operand bytes in the order they lie in memory; a direct address has its low byte first (R59, R73). -/
def Operands.bytes : Operands → List Byte
  | .none => []
  | .imm n => [n]
  | .addr nn => [loByte nn, hiByte nn]
  | .disp d => [d]
  | .dispImm d n => [d, n]

/-- The bytes of an assembled instruction, first byte first (R73). -/
def encode (x : Asm) : List Byte := x.instr.opcode ++ x.operands.bytes

/-- The byte registers in the order of their codes (R74). -/
def Reg8.all : List Reg8 := [Reg8.b, Reg8.c, Reg8.d, Reg8.e, Reg8.h, Reg8.l, Reg8.a]

/-- Every instance of every form, in the order of R80's table. -/
def Form.all : List Form :=
  List.flatten [Reg8.all.flatMap (fun r => Reg8.all.map (Form.ldRR r)), Reg8.all.map Form.ldRN,
    Reg8.all.map Form.ldRHL, [Form.ldABC, Form.ldADE], Reg8.all.map Form.ldRIX, Reg8.all.map Form.ldRIY,
    Reg8.all.map Form.ldHLR, [Form.ldBCA, Form.ldDEA, Form.ldHLN, Form.ldIXN, Form.ldIYN, Form.ldANN, Form.ldNNA,
    Form.ldAI, Form.ldAR]]

/-- All 95 opcodes, in the order of spec/opcode_table.json. -/
def Instr.all : List Instr := Form.all.map Form.instr

/-- The default dispatch table of R80 as rows of opcode bytes and opcode, 95 of them. -/
def standardRows : List (List Byte × Instr) := Instr.all.map (fun i => (i.opcode, i))

/-! ### Assembler spelling (R85) -/

/-- The register's name (R85). -/
def Reg8.spelling : Reg8 → String
  | .b => "B" | .c => "C" | .d => "D" | .e => "E" | .h => "H" | .l => "L" | .a => "A"

/-- A byte as a signed decimal with its sign: "+5", "-128" (R85). -/
def signedSpelling (d : Byte) : String :=
  if d.toInt < 0 then String.append "-" (toString d.toInt.natAbs) else String.append "+" (toString d.toInt.natAbs)

/-- The last `k` hexadecimal digits of a number, most significant first. -/
def hexDigits : Nat → Nat → List Char
  | 0, _ => []
  | k + 1, v => hexDigits k (v / 16) ++ [(Nat.digitChar (v % 16)).toUpper]

/-- A byte as 0x and two hexadecimal digits. -/
def hexByte (b : Byte) : String := String.append "0x" (String.ofList (hexDigits 2 b.toNat))

/-- A word as 0x and four hexadecimal digits. -/
def hexWord (v : Word) : String := String.append "0x" (String.ofList (hexDigits 4 v.toNat))

/-- The Zilog spelling of a form, destination first, with the spellings of its operands (R85). -/
def Form.spelling (n d nn : String) : Form → List String
  | .ldRR r r' => ["LD ", r.spelling, ",", r'.spelling]
  | .ldRN r => ["LD ", r.spelling, ",", n]
  | .ldRHL r => ["LD ", r.spelling, ",(HL)"]
  | .ldABC => ["LD A,(BC)"]
  | .ldADE => ["LD A,(DE)"]
  | .ldRIX r => ["LD ", r.spelling, ",(IX", d, ")"]
  | .ldRIY r => ["LD ", r.spelling, ",(IY", d, ")"]
  | .ldHLR r => ["LD (HL),", r.spelling]
  | .ldBCA => ["LD (BC),A"]
  | .ldDEA => ["LD (DE),A"]
  | .ldHLN => ["LD (HL),", n]
  | .ldIXN => ["LD (IX", d, "),", n]
  | .ldIYN => ["LD (IY", d, "),", n]
  | .ldANN => ["LD A,(", nn, ")"]
  | .ldNNA => ["LD (", nn, "),A"]
  | .ldAI => ["LD A,I"]
  | .ldAR => ["LD A,R"]

/-- The spelling of an immediate byte; `n` where there is none. -/
def Operands.immSpelling : Operands → String
  | .imm n => hexByte n
  | .dispImm _ n => hexByte n
  | _ => "n"

/-- The spelling of a displacement; `+d` where there is none. -/
def Operands.dispSpelling : Operands → String
  | .disp d => signedSpelling d
  | .dispImm d _ => signedSpelling d
  | _ => "+d"

/-- The spelling of a direct address; `nn` where there is none. -/
def Operands.addrSpelling : Operands → String
  | .addr nn => hexWord nn
  | _ => "nn"

/-- The Zilog spelling of an assembled instruction (R85). -/
def Asm.spelling (x : Asm) : String :=
  String.join (x.instr.form.spelling x.operands.immSpelling x.operands.dispSpelling x.operands.addrSpelling)

/-! ### The host's table words -/

/-- The longest instruction's bytes (R72) of a table word, in memory order (log 13). Byte k is bits 8k+7..8k of
`w`, as the row's instructions number them. In the rows of two opcode bytes spec/opcode_table.json itself writes the
first byte in bits 15..8 ("fixed" 0xDD46), so where the row has more than one byte, bits 15..8 hold a prefix byte
and bits 7..0 do not, those two are taken in that order. -/
def tableWordBytes (nbits w : Nat) : List Byte :=
  let byteAt (k : Nat) : Byte := BitVec.ofNat 8 ((w % 2 ^ nbits) >>> (8 * k))
  if nbits > 8 && isTablePrefix (byteAt 1) && !isTablePrefix (byteAt 0) then
    [byteAt 1, byteAt 0, byteAt 2, byteAt 3]
  else
    [byteAt 0, byteAt 1, byteAt 2, byteAt 3]

/-- The instruction the decoder reads from a table word, operand bits above `nbits` being zero. -/
def decodeTableWord (nbits w : Nat) : Option Instr :=
  match decode (tableWordBytes nbits w) with
  | .ok (x, _) => some x.instr
  | .error _ => none

end Sys2Proof
end

