-- ==== Sys2Proof/Machine/State.lean ====
section
/-! DEFINITION. The state of the machine as plain data: the 13 register cells and the two flip-flops
(10_state.md R39, R41), the Bus as an ordered list of components with one store each (20_memory.md R52, R58), the
host's cycle total T (40_engine.md R94), and the session parameters (00_scope.md R8). -/

namespace Sys2Proof.Machine

/-! ### Registers, selectors and flags -/

/-- The 13 register cells (R15); `Alt` reads as the prime of AF′ to HL′. -/
inductive RegCell where
  | af | bc | de | hl | afAlt | bcAlt | deAlt | hlAlt | ir | ix | iy | sp | pc
  deriving DecidableEq, Repr

/-- The 12 word selectors: every cell but IR (R16). A closed enumeration, so no other selector exists (R40). -/
inductive WordReg where
  | af | bc | de | hl | afAlt | bcAlt | deAlt | hlAlt | ix | iy | sp | pc
  deriving DecidableEq, Repr

/-- The 10 byte selectors (R17). A closed enumeration, so no other selector exists (R40). -/
inductive ByteReg where
  | a | f | b | c | d | e | h | l | i | r
  deriving DecidableEq, Repr

/-- The six named flags of F (R27). -/
inductive Flag where
  | s | z | h | pv | n | c
  deriving DecidableEq, Repr

/-- The register file: 13 independent 16-bit cells (R15), one stored Word each (R20). -/
structure RegFile where
  af : Word
  bc : Word
  de : Word
  hl : Word
  afAlt : Word
  bcAlt : Word
  deAlt : Word
  hlAlt : Word
  ir : Word
  ix : Word
  iy : Word
  sp : Word
  pc : Word
  deriving DecidableEq, Repr

/-! ### The Bus -/

/-- One component's backing store: the bytes at the offsets from `inclusiveStart`, as a list of (offset, byte) in
canonical form: offsets strictly rising, no zero byte listed, an unlisted offset reading zero (R46, R47, log 6). -/
abbrev Memory := List Host.Cell

/-- The two component kinds (R51). -/
inductive ComponentKind where
  | ram | rom
  deriving DecidableEq, Repr

/-- A bus component: kind, bounds `[start, stop)` as integers (R45), and store (R46). -/
structure Component where
  kind : ComponentKind
  start : Nat
  stop : Nat
  store : Memory
  deriving DecidableEq, Repr

/-- The Bus: the components in registration order (R52). -/
abbrev Bus := List Component

/-! ### The dispatch entry -/

/-- A dispatch entry, "a concrete opcode" (R88): an instruction, which is a family with its registers, and the cycle
cost the entry carries (R92, R93). -/
structure DispatchEntry where
  instr : Instr
  cycles : Nat
  deriving DecidableEq, Repr

/-! ### The whole state -/

/-- Everything the spec gives the machine. -/
structure State where
  /-- the 13 register cells (R15) -/
  regs : RegFile
  /-- the first interrupt flip-flop (R37) -/
  iff1 : Bool
  /-- the second interrupt flip-flop (R37) -/
  iff2 : Bool
  /-- the components and their stores (R52, R58) -/
  bus : Bus
  /-- T, the host's running total of reported cycles (R94) -/
  total : Nat
  /-- the session parameters (R8) -/
  params : Params
  deriving DecidableEq, Repr

/-! ### Outcomes (R12) -/

/-- Why a step faults. -/
inductive Fault where
  /-- Raised by a step whose Bus access is at an address no component covers, only when FAULT_ON_UNMAPPED is true
  (R119). Safe: with the parameter true the spec itself faults here. -/
  | unmappedAccess (address : Word)
  deriving DecidableEq, Repr

/-- Why a step or a construction is refused. -/
inductive Refusal where
  /-- Raised by an arm of `exec` for an instruction without a meaning; no arm uses it. Safe. -/
  | notModelled (mnemonic : String)
  /-- Raised by the fetch: the bytes at PC spell no admitted opcode (R82). Safe. -/
  | unadmittedOpcode (bytes : List Byte)
  /-- Raised by `boot`: a component's bounds are not `0 <= start <= end <= 65536` (R51). Safe. -/
  | componentBounds (start stop : Nat)
  /-- Raised by `boot`: a ROM image is not of its component's size (R50, log 19). Safe. -/
  | romImageSize (start stop imageBytes : Nat)
  /-- Raised by `boot` under STRICT_SINGLE_OWNER: two component ranges overlap (R51). Safe. -/
  | overlappingComponents
  /-- Raised by `boot`: the DISPATCH rows spell no dispatch table (R80, log 19). Safe. -/
  | dispatchTable
  deriving DecidableEq, Repr

/-- What one step, or one meaning, answers. -/
abbrev Result := Host.Outcome State Fault Refusal

/-! ### Reset -/

/-- Every cell zero. DESIGN CHOICE (log 1): the spec leaves the initial cells free (R134). -/
def RegFile.zero : RegFile where
  af := 0
  bc := 0
  de := 0
  hl := 0
  afAlt := 0
  bcAlt := 0
  deAlt := 0
  hlAlt := 0
  ir := 0
  ix := 0
  iy := 0
  sp := 0
  pc := 0

/-- The machine has no reset (R137): this is a fresh instance. Its cells are zero (log 1), its flip-flops false
(log 2), its Bus one RAM over the whole space (log 3) holding zeros (R47), T is 0 (R94) and the parameters have their
defaults (R8). -/
def State.reset : State where
  regs := RegFile.zero
  iff1 := false
  iff2 := false
  bus := [{ kind := .ram, start := 0, stop := 65536, store := [] }]
  total := 0
  params := Params.default

/-- What the host fixes and seeds to start a session (R8, R138). -/
structure Launch where
  components : List ComponentSpec
  params : Params
  regs : RegFile
  iff1 : Bool
  iff2 : Bool
  deriving DecidableEq, Repr

end Sys2Proof.Machine
end

