-- ==== Sys2Proof/Machine/Cycles.lean ====
section
/-! DEFINITION. Cycle costs, the dispatch entry that carries them, and the host's total T (40_engine.md R88, R92 to
R94). -/

namespace Sys2Proof.Machine

/-- The default CYCLES of each form (R93, decision D3). -/
def defaultCycles : Form → Nat
  | .ldRR _ _ => 1
  | .ldRN _ => 2
  | .ldRHL _ => 2
  | .ldABC => 2
  | .ldADE => 2
  | .ldRIX _ => 5
  | .ldRIY _ => 5
  | .ldHLR _ => 2
  | .ldBCA => 2
  | .ldDEA => 2
  | .ldHLN => 3
  | .ldIXN => 5
  | .ldIYN => 5
  | .ldANN => 4
  | .ldNNA => 4
  | .ldAI => 2
  | .ldAR => 2

/-- `CYCLES[op]`: the cost the session's table declares for the opcode's bytes, else its form's default (R92, R93,
log 10). Two DISPATCH entries with one instruction may so carry two costs (R8, R100). -/
def cycleCost (p : Params) (op : List Byte) (i : Instr) : Nat :=
  (p.cycleOverrides.lookup op).getD (defaultCycles i.form)

/-- The dispatch entry of an opcode's bytes under the session's DISPATCH and CYCLES (R8, R80, R88). -/
def dispatchEntry (p : Params) (op : List Byte) : Option DispatchEntry :=
  (dispatchLookup p.dispatch op).map fun i => { instr := i, cycles := cycleCost p op i }

/-- Adds a reported cost to the host's total T (R94). -/
def State.addCycles (s : State) (n : Nat) : State := { s with total := s.total + n }

/-- The driving loop accumulates the cost an invoked instruction returned (R89, R94, R100). -/
def accumulate (r : Host.Outcome (State × Nat) Fault Refusal) : Result :=
  match r with
  | .next (s, n) => .next (s.addCycles n)
  | .fault f => .fault f
  | .refused q => .refused q

end Sys2Proof.Machine
end

