-- ==== Sys2Proof/Machine/Bus.lean ====
section
/-! DEFINITION. The memory bus (20_memory.md): one component's store, the RAM and ROM components, and the Bus's four
operations. None of them faults (R57). -/

namespace Sys2Proof.Machine

/-! ### A store -/

/-- What an unlisted offset of a store reads as: zero, a RAM's contents when it is built (R47). A ROM's image is
stored in the same form, its zero bytes unlisted (log 6). -/
def Memory.unlisted : Byte := 0

/-- The byte at an offset of a store. -/
def Memory.get : Memory → Nat → Byte
  | [], _ => Memory.unlisted
  | (k, b) :: rest, a => if k = a then b else Memory.get rest a

/-- Sets the byte at an offset, keeping the canonical form: an offset set to what an unlisted one reads as is
dropped from the list. -/
def Memory.set : Memory → Nat → Byte → Memory
  | [], a, v => if v = Memory.unlisted then [] else [(a, v)]
  | (k, b) :: rest, a, v =>
    if k < a then (k, b) :: Memory.set rest a v
    else if k = a then (if v = Memory.unlisted then rest else (a, v) :: rest)
    else (if v = Memory.unlisted then (k, b) :: rest else (a, v) :: (k, b) :: rest)

/-- Canonical form from an offset on: offsets strictly rising and at least `low`, no listed byte equal to what an
unlisted offset reads as. -/
def Memory.wfFrom : Nat → Memory → Bool
  | _, [] => true
  | low, (k, b) :: rest => decide (low ≤ k) && b != Memory.unlisted && Memory.wfFrom (k + 1) rest

/-- The canonical form of a store of `size` bytes: strictly rising offsets below `size`, no unlisted value listed. -/
def Memory.wf (size : Nat) (m : Memory) : Bool :=
  Memory.wfFrom 0 m && m.all (fun cell => decide (cell.1 < size))

/-- The store that holds a list of bytes from an offset on (R50: a ROM's image). -/
def Memory.ofBytes : Nat → List Byte → Memory
  | _, [] => []
  | k, b :: rest =>
    if b = Memory.unlisted then Memory.ofBytes (k + 1) rest else (k, b) :: Memory.ofBytes (k + 1) rest

/-! ### Components -/

/-- `accept_read`: the address lies in the component's range (R45, R48). -/
def Component.acceptRead (c : Component) (a : Word) : Bool :=
  decide (c.start ≤ a.toNat) && decide (a.toNat < c.stop)

/-- `accept_write`: a RAM accepts where it accepts reads (R45), a ROM never (R48). -/
def Component.acceptWrite (c : Component) (a : Word) : Bool :=
  match c.kind with
  | .ram => c.acceptRead a
  | .rom => false

/-- `read` (R46): the store's byte at `a − inclusiveStart`. Outside the range the value is free (R44, log 7). -/
def Component.read (c : Component) (a : Word) : Byte :=
  if c.acceptRead a then Memory.get c.store (a.toNat - c.start)
  else Config.outOfRangeRead c.start c.stop a.toNat

/-- `write` (R46): sets the store's byte at `a − inclusiveStart`. Where `accept_write` is false the effect on the
store is free (R44, R49, log 7). -/
def Component.write (c : Component) (a : Word) (v : Byte) : Component :=
  if c.acceptWrite a then { c with store := Memory.set c.store (a.toNat - c.start) v }
  else { c with store := Config.outOfRangeWrite c.store a.toNat v }

/-- A component as R51 and log 6 have it: admitted bounds and a store of the range's size in canonical form. -/
def Component.wf (c : Component) : Bool :=
  boundsWf c.start c.stop && Memory.wf (c.stop - c.start) c.store

/-! ### The Bus -/

/-- `MemRead(a, 1)` (R53): the OR over the accepting components, from zero. -/
def Bus.read (bus : Bus) (a : Word) : Byte :=
  bus.foldl (fun acc c => if c.acceptRead a then acc ||| c.read a else acc) 0

/-- `MemWrite(a, 1, v)` (R54): every accepting component receives the write. -/
def Bus.write (bus : Bus) (a : Word) (v : Byte) : Bus :=
  bus.map (fun c => if c.acceptWrite a then c.write a v else c)

/-- `MemRead(a, 2)` (R55): little-endian, the high byte from `a +16 1`. -/
def Bus.readWord (bus : Bus) (a : Word) : Word := wordOf (bus.read (a + 1)) (bus.read a)

/-- `MemWrite(a, 2, v)` (R56): the low byte to `a`, then the high byte to `a +16 1`. -/
def Bus.writeWord (bus : Bus) (a : Word) (v : Word) : Bus :=
  (bus.write a (loByte v)).write (a + 1) (hiByte v)

/-- Some component covers the address (R119). -/
def Bus.covers (bus : Bus) (a : Word) : Bool := bus.any (fun c => c.acceptRead a)

/-- No two components' ranges overlap (R51). -/
def Bus.disjoint : Bus → Bool
  | [] => true
  | c :: rest => rest.all (fun c' => rangesDisjoint c.start c.stop c'.start c'.stop) && Bus.disjoint rest

/-- Every component is well formed. -/
def Bus.wf (bus : Bus) : Bool := bus.all Component.wf

end Sys2Proof.Machine
end

