-- ==== Sys2Proof/Machine/Regs.lean ====
section
/-! DEFINITION. The register file's accessors (10_state.md R16 to R20). Every read and write of a register goes
through the cell accessors here. -/

namespace Sys2Proof.Machine

/-- The Word stored in a cell. -/
def RegFile.cell (f : RegFile) : RegCell → Word
  | .af => f.af
  | .bc => f.bc
  | .de => f.de
  | .hl => f.hl
  | .afAlt => f.afAlt
  | .bcAlt => f.bcAlt
  | .deAlt => f.deAlt
  | .hlAlt => f.hlAlt
  | .ir => f.ir
  | .ix => f.ix
  | .iy => f.iy
  | .sp => f.sp
  | .pc => f.pc

/-- Stores a Word in a cell; no cell shares storage with another (R15). -/
def RegFile.setCell (f : RegFile) (c : RegCell) (v : Word) : RegFile :=
  match c with
  | .af => { f with af := v }
  | .bc => { f with bc := v }
  | .de => { f with de := v }
  | .hl => { f with hl := v }
  | .afAlt => { f with afAlt := v }
  | .bcAlt => { f with bcAlt := v }
  | .deAlt => { f with deAlt := v }
  | .hlAlt => { f with hlAlt := v }
  | .ir => { f with ir := v }
  | .ix => { f with ix := v }
  | .iy => { f with iy := v }
  | .sp => { f with sp := v }
  | .pc => { f with pc := v }

/-- The cell a word selector names (R16). -/
def WordReg.cell : WordReg → RegCell
  | .af => .af
  | .bc => .bc
  | .de => .de
  | .hl => .hl
  | .afAlt => .afAlt
  | .bcAlt => .bcAlt
  | .deAlt => .deAlt
  | .hlAlt => .hlAlt
  | .ix => .ix
  | .iy => .iy
  | .sp => .sp
  | .pc => .pc

/-- The cell a byte selector names a half of (R17). -/
def ByteReg.cell : ByteReg → RegCell
  | .a | .f => .af
  | .b | .c => .bc
  | .d | .e => .de
  | .h | .l => .hl
  | .i | .r => .ir

/-- Whether a byte selector names the high half (R17): the first-named letter is the high byte (D8). -/
def ByteReg.isHigh : ByteReg → Bool
  | .a | .b | .d | .h | .i => true
  | .f | .c | .e | .l | .r => false

/-- The byte selector of a load's register (R22). -/
def byteRegOf : Reg8 → ByteReg
  | .b => .b
  | .c => .c
  | .d => .d
  | .e => .e
  | .h => .h
  | .l => .l
  | .a => .a

/-- Stores a Word in a cell of the state. -/
def State.setCell (s : State) (c : RegCell) (v : Word) : State := { s with regs := s.regs.setCell c v }

/-- `x[W]` (R16). -/
def State.readWord (s : State) (w : WordReg) : Word := s.regs.cell w.cell

/-- `x[W] <- v` (R16, R20). -/
def State.writeWord (s : State) (w : WordReg) (v : Word) : State := s.setCell w.cell v

/-- `x[b]`: the selected half of its cell (R18). -/
def State.readByte (s : State) (sel : ByteReg) : Byte :=
  if sel.isHigh then hiByte (s.regs.cell sel.cell) else loByte (s.regs.cell sel.cell)

/-- `x[b] <- v`: only the selected half changes (R19). -/
def State.writeByte (s : State) (sel : ByteReg) (v : Byte) : State :=
  s.setCell sel.cell
    (if sel.isHigh then wordOf v (loByte (s.regs.cell sel.cell))
      else wordOf (hiByte (s.regs.cell sel.cell)) v)

/-- Writes flip-flop iff1, and nothing else (R37, R38). -/
def State.setIff1 (s : State) (v : Bool) : State := { s with iff1 := v }

/-- Writes flip-flop iff2, and nothing else (R37, R38). -/
def State.setIff2 (s : State) (v : Bool) : State := { s with iff2 := v }

end Sys2Proof.Machine
end

