-- ==== Sys2Proof/Machine/Flags.lean ====
section
/-! DEFINITION. The flag register F (10_state.md R27 to R34) and the flag effect of the interrupt-vector loads
(45_ld8_interrupt_vector.md R116, R117). -/

namespace Sys2Proof.Machine

/-- The bit of F a flag is (R27). Bits 5 and 3 belong to no flag (R28). -/
def Flag.bit : Flag → Nat
  | .s => 7
  | .z => 6
  | .h => 4
  | .pv => 2
  | .n => 1
  | .c => 0

/-- The byte with only a flag's bit set. -/
def Flag.mask (f : Flag) : Byte := 1 <<< f.bit

/-- `get(flag)`: whether the bit is set (R32). -/
def State.getFlag (s : State) (f : Flag) : Bool := (s.readByte .f).getLsbD f.bit

/-- `enable(flag)`: sets the bit, every other bit of AF unchanged (R30, R10). -/
def State.enableFlag (s : State) (f : Flag) : State := s.writeByte .f (s.readByte .f ||| f.mask)

/-- `disable(flag)`: clears the bit, every other bit of AF unchanged (R31, R10). -/
def State.disableFlag (s : State) (f : Flag) : State := s.writeByte .f (s.readByte .f &&& ~~~f.mask)

/-- `F.X <- v`: writes one bit (R10). -/
def State.putFlag (s : State) (f : Flag) (v : Bool) : State :=
  if v then s.enableFlag f else s.disableFlag f

/-- `clearFlags()`: zeroes F entirely, bits 5 and 3 too; A is unchanged (R33). -/
def State.clearFlags (s : State) : State := s.writeByte .f 0

/-- `set(flag, value)`, the host's accessor with its inverted polarity: true disables, false enables (R34). No
instruction uses it. -/
def State.setFlagInverted (s : State) (f : Flag) (value : Bool) : State := s.putFlag f (!value)

/-- The five flag writes of LD A,I and LD A,R for the value v loaded, in the order of R116: S = v[7], Z iff v = 0,
H = 0, PV = iff2, N = 0. C and bits 5 and 3 keep their values. -/
def State.putInterruptVectorFlags (s : State) (v : Byte) : State :=
  ((((s.putFlag .s (v.getLsbD 7)).putFlag .z (v == 0)).putFlag .h false).putFlag .pv s.iff2).putFlag .n false

end Sys2Proof.Machine
end

