-- ==== Sys2Proof/Machine/Ops.lean ====
section
/-! DEFINITION. The operations every meaning is built from: the PC step (10_state.md R26) and an instruction's Bus
accesses with FAULT_ON_UNMAPPED (60_exceptions.md R119).
The core takes no exception and returns from none (R118, R124, R125), so no operation for either stands here. -/

namespace Sys2Proof.Machine

/-- `Step(n)`: PC advances by n, wrapping; the answer holds the PC before (R26). -/
def State.stepPC (s : State) (n : Word) : Word × State :=
  (s.readWord .pc, s.writeWord .pc (s.readWord .pc + n))

/-- The state with another Bus, nothing else changed. -/
def State.withBus (s : State) (bus : Bus) : State := { s with bus := bus }

/-- A step's access at an address faults: FAULT_ON_UNMAPPED is true and no component covers it (R119). -/
def State.accessFaults (s : State) (a : Word) : Bool := s.params.faultOnUnmapped && !s.bus.covers a

/-- An instruction's `MemRead(a, 1)`, continued with the byte read (R11, R53, R119). -/
def busRead (s : State) (a : Word) (k : Byte → Result) : Result :=
  if s.accessFaults a then .fault (.unmappedAccess a) else k (s.bus.read a)

/-- An instruction's `MemRead(a, 2)`: two byte reads, low byte first (R55, R119). -/
def busReadWord (s : State) (a : Word) (k : Word → Result) : Result :=
  busRead s a fun lo => busRead s (a + 1) fun hi => k (wordOf hi lo)

/-- An instruction's `MemWrite(a, 1, v)`, continued with the state after it. A write at a covered ROM address is
dropped, not faulted (R11, R54, R119). -/
def busWrite (s : State) (a : Word) (v : Byte) (k : State → Result) : Result :=
  if s.accessFaults a then .fault (.unmappedAccess a) else k (s.withBus (s.bus.write a v))

end Sys2Proof.Machine
end

