-- ==== Sys2Proof/Machine/Fetch.lean ====
section
/-! DEFINITION. The driving loop's fetch and resolution (30_encoding.md R79, 40_engine.md R89), and the placing of a
program's bytes where the fetch finds them. -/

namespace Sys2Proof.Machine

/-- Resolves an opcode's bytes to their dispatch entry, or refuses (R82, R89). -/
def resolve (s : State) (bytes : List Byte) (k : DispatchEntry → Result) : Result :=
  match dispatchEntry s.params bytes with
  | some e => k e
  | none => .refused (.unadmittedOpcode bytes)

/-- Fetches the opcode at PC and resolves it, changing no state: byte 0 at PC, and byte 1 at `PC +16 1` behind a
prefix 0xDD, 0xED or 0xFD; nothing more is read (R79). Each fetch is a Bus access of the step (R119). -/
def fetchOpcode (s : State) (k : DispatchEntry → Result) : Result :=
  let pc := s.readWord .pc
  busRead s pc fun b0 =>
    if isDecodedPrefix b0 then busRead s (pc + 1) fun b1 => resolve s [b0, b1] k
    else resolve s [b0] k

/-- Puts a byte into a component's backing store, as the loader does before service (R50): RAM and ROM alike. -/
def loaderPut (c : Component) (a : Word) (v : Byte) : Component :=
  if c.acceptRead a then { c with store := Memory.set c.store (a.toNat - c.start) v } else c

/-- Places a byte at an address so that a Bus read there gives it: every component that covers the address gets it,
and where none does, a RAM of that one byte is registered last (log 14). -/
def Bus.place (bus : Bus) (a : Word) (v : Byte) : Bus :=
  if bus.covers a then bus.map (fun c => loaderPut c a v)
  else bus ++ [{ kind := .ram, start := a.toNat, stop := a.toNat + 1, store := Memory.set [] 0 v }]

/-- Places bytes at consecutive addresses, wrapping (R60). -/
def Bus.placeBytes : Bus → Word → List Byte → Bus
  | bus, _, [] => bus
  | bus, a, b :: rest => Bus.placeBytes (bus.place a b) (a + 1) rest

end Sys2Proof.Machine
end

