-- ==== Sys2Proof/Machine/Operands.lean ====
section
/-! DEFINITION. The operand forms (30_encoding.md R76 to R78). Each reads its operand bytes relative to `p`, the
instruction's own first byte (40_engine.md R91). -/

namespace Sys2Proof.Machine

/-- The two index registers (R24, R75). -/
inductive IndexReg where
  | ix | iy
  deriving DecidableEq, Repr

/-- The word selector of an index register. -/
def wordRegOfIndex : IndexReg → WordReg
  | .ix => .ix
  | .iy => .iy

/-- The effective address of (IX+d) and (IY+d): `x[IX or IY] +16 sext_16(d)` (R77). -/
def indexedAddress (base : Word) (d : Byte) : Word := base + sext16 d

/-- The operand n of layout B, at `p +16 1` (R76). -/
def withImmediate (s : State) (p : Word) (k : Byte → Result) : Result := busRead s (p + 1) k

/-- The operand nn of layout C, the little-endian word at `p +16 1` (R78). -/
def withDirectAddress (s : State) (p : Word) (k : Word → Result) : Result := busReadWord s (p + 1) k

/-- The address operand of layout E: d at `p +16 2`, added to the index register (R77). -/
def withIndexed (s : State) (xy : IndexReg) (p : Word) (k : Word → Result) : Result :=
  busRead s (p + 2) fun d => k (indexedAddress (s.readWord (wordRegOfIndex xy)) d)

/-- The operands of layout F: d at `p +16 2`, then n at `p +16 3` (R76, R77). -/
def withIndexedImmediate (s : State) (xy : IndexReg) (p : Word) (k : Word → Byte → Result) : Result :=
  busRead s (p + 2) fun d => busRead s (p + 3) fun n =>
    k (indexedAddress (s.readWord (wordRegOfIndex xy)) d) n

end Sys2Proof.Machine
end

