-- ==== Sys2Proof/Machine/Direct.lean ====
section
/-! DEFINITION. 8-bit loads and stores at a direct 16-bit address (44_ld8_direct.md R114, R115). -/

namespace Sys2Proof.Machine

/-- LD A,(nn) (R114): `p <- Step(3)`, then nn, then the byte at nn, then `x[r] <- v`. -/
def loadDirect (r : Reg8) (s : State) : Result :=
  let (p, s) := s.stepPC 3
  withDirectAddress s p fun nn => busRead s nn fun v => .next (s.writeByte (byteRegOf r) v)

/-- LD (nn),A (R115): `p <- Step(3)`, then nn, then the write of `x[r]` at nn, one byte. -/
def storeDirect (r : Reg8) (s : State) : Result :=
  let (p, s) := s.stepPC 3
  withDirectAddress s p fun nn => busWrite s nn (s.readByte (byteRegOf r)) fun s => .next s

/-- LD A,(nn) (R114). -/
def execLd_A_atnn (s : State) : Result := loadDirect .a s

/-- LD (nn),A (R115). -/
def execLd_atnn_A (s : State) : Result := storeDirect .a s

end Sys2Proof.Machine
end

