-- ==== Sys2Proof/Machine/InterruptVector.lean ====
section
/-! DEFINITION. Loads from the interrupt-vector and refresh registers (45_ld8_interrupt_vector.md R116, R117). -/

namespace Sys2Proof.Machine

/-- LD A,I and LD A,R (R116, R117): `p <- Step(2)`, then `x[A] <- v` for v the I or R half of IR, then the flags S, Z,
H, PV and N. -/
def loadInterruptVector (source : ByteReg) (s : State) : Result :=
  let (_, s) := s.stepPC 2
  let v := s.readByte source
  .next ((s.writeByte .a v).putInterruptVectorFlags v)

/-- LD A,I (R116). -/
def execLd_A_I (s : State) : Result := loadInterruptVector .i s

/-- LD A,R (R117). -/
def execLd_A_R (s : State) : Result := loadInterruptVector .r s

end Sys2Proof.Machine
end

