-- ==== Sys2Proof/Machine/LoadMemory.lean ====
section
/-! DEFINITION. 8-bit loads from memory, indirect and indexed (42_ld8_indirect_indexed_load.md R103 to R107). -/

namespace Sys2Proof.Machine

/-- LD r,(HL), LD A,(BC), LD A,(DE) (R103 to R105): `p <- Step(1)`, then the byte at the pair, then `x[r] <- v`. The
address is the pair's value before the write (R103). -/
def loadIndirect (r : Reg8) (pair : WordReg) (s : State) : Result :=
  let (_, s) := s.stepPC 1
  busRead s (s.readWord pair) fun v => .next (s.writeByte (byteRegOf r) v)

/-- LD r,(IX+d), LD r,(IY+d) (R106, R107): `p <- Step(3)`, then d, then the byte at the indexed address, then
`x[r] <- v`. -/
def loadIndexed (r : Reg8) (xy : IndexReg) (s : State) : Result :=
  let (p, s) := s.stepPC 3
  withIndexed s xy p fun a => busRead s a fun v => .next (s.writeByte (byteRegOf r) v)

/-- LD B,(HL) (R103). -/
def execLd_B_atHL (s : State) : Result := loadIndirect .b .hl s

/-- LD C,(HL) (R103). -/
def execLd_C_atHL (s : State) : Result := loadIndirect .c .hl s

/-- LD D,(HL) (R103). -/
def execLd_D_atHL (s : State) : Result := loadIndirect .d .hl s

/-- LD E,(HL) (R103). -/
def execLd_E_atHL (s : State) : Result := loadIndirect .e .hl s

/-- LD H,(HL) (R103). -/
def execLd_H_atHL (s : State) : Result := loadIndirect .h .hl s

/-- LD L,(HL) (R103). -/
def execLd_L_atHL (s : State) : Result := loadIndirect .l .hl s

/-- LD A,(HL) (R103). -/
def execLd_A_atHL (s : State) : Result := loadIndirect .a .hl s

/-- LD A,(BC) (R104). -/
def execLd_A_atBC (s : State) : Result := loadIndirect .a .bc s

/-- LD A,(DE) (R105). -/
def execLd_A_atDE (s : State) : Result := loadIndirect .a .de s

/-- LD B,(IX+d) (R106). -/
def execLd_B_atIX (s : State) : Result := loadIndexed .b .ix s

/-- LD C,(IX+d) (R106). -/
def execLd_C_atIX (s : State) : Result := loadIndexed .c .ix s

/-- LD D,(IX+d) (R106). -/
def execLd_D_atIX (s : State) : Result := loadIndexed .d .ix s

/-- LD E,(IX+d) (R106). -/
def execLd_E_atIX (s : State) : Result := loadIndexed .e .ix s

/-- LD H,(IX+d) (R106). -/
def execLd_H_atIX (s : State) : Result := loadIndexed .h .ix s

/-- LD L,(IX+d) (R106). -/
def execLd_L_atIX (s : State) : Result := loadIndexed .l .ix s

/-- LD A,(IX+d) (R106). -/
def execLd_A_atIX (s : State) : Result := loadIndexed .a .ix s

/-- LD B,(IY+d) (R107). -/
def execLd_B_atIY (s : State) : Result := loadIndexed .b .iy s

/-- LD C,(IY+d) (R107). -/
def execLd_C_atIY (s : State) : Result := loadIndexed .c .iy s

/-- LD D,(IY+d) (R107). -/
def execLd_D_atIY (s : State) : Result := loadIndexed .d .iy s

/-- LD E,(IY+d) (R107). -/
def execLd_E_atIY (s : State) : Result := loadIndexed .e .iy s

/-- LD H,(IY+d) (R107). -/
def execLd_H_atIY (s : State) : Result := loadIndexed .h .iy s

/-- LD L,(IY+d) (R107). -/
def execLd_L_atIY (s : State) : Result := loadIndexed .l .iy s

/-- LD A,(IY+d) (R107). -/
def execLd_A_atIY (s : State) : Result := loadIndexed .a .iy s

end Sys2Proof.Machine
end

