-- ==== Sys2Proof/Machine/LoadRegister.lean ====
section
/-! DEFINITION. 8-bit loads, register and immediate families (41_ld8_register.md R101, R102). -/

namespace Sys2Proof.Machine

/-- LD r,r' (R101): `p <- Step(1)`, then `x[r] <- x[r']`. -/
def loadRegister (r r' : Reg8) (s : State) : Result :=
  let (_, s) := s.stepPC 1
  .next (s.writeByte (byteRegOf r) (s.readByte (byteRegOf r')))

/-- LD r,n (R102): `p <- Step(2)`, then n from `p +16 1`, then `x[r] <- n`. -/
def loadImmediate (r : Reg8) (s : State) : Result :=
  let (p, s) := s.stepPC 2
  withImmediate s p fun n => .next (s.writeByte (byteRegOf r) n)

/-- LD B,B (R101). -/
def execLd_B_B (s : State) : Result := loadRegister .b .b s

/-- LD B,C (R101). -/
def execLd_B_C (s : State) : Result := loadRegister .b .c s

/-- LD B,D (R101). -/
def execLd_B_D (s : State) : Result := loadRegister .b .d s

/-- LD B,E (R101). -/
def execLd_B_E (s : State) : Result := loadRegister .b .e s

/-- LD B,H (R101). -/
def execLd_B_H (s : State) : Result := loadRegister .b .h s

/-- LD B,L (R101). -/
def execLd_B_L (s : State) : Result := loadRegister .b .l s

/-- LD B,A (R101). -/
def execLd_B_A (s : State) : Result := loadRegister .b .a s

/-- LD C,B (R101). -/
def execLd_C_B (s : State) : Result := loadRegister .c .b s

/-- LD C,C (R101). -/
def execLd_C_C (s : State) : Result := loadRegister .c .c s

/-- LD C,D (R101). -/
def execLd_C_D (s : State) : Result := loadRegister .c .d s

/-- LD C,E (R101). -/
def execLd_C_E (s : State) : Result := loadRegister .c .e s

/-- LD C,H (R101). -/
def execLd_C_H (s : State) : Result := loadRegister .c .h s

/-- LD C,L (R101). -/
def execLd_C_L (s : State) : Result := loadRegister .c .l s

/-- LD C,A (R101). -/
def execLd_C_A (s : State) : Result := loadRegister .c .a s

/-- LD D,B (R101). -/
def execLd_D_B (s : State) : Result := loadRegister .d .b s

/-- LD D,C (R101). -/
def execLd_D_C (s : State) : Result := loadRegister .d .c s

/-- LD D,D (R101). -/
def execLd_D_D (s : State) : Result := loadRegister .d .d s

/-- LD D,E (R101). -/
def execLd_D_E (s : State) : Result := loadRegister .d .e s

/-- LD D,H (R101). -/
def execLd_D_H (s : State) : Result := loadRegister .d .h s

/-- LD D,L (R101). -/
def execLd_D_L (s : State) : Result := loadRegister .d .l s

/-- LD D,A (R101). -/
def execLd_D_A (s : State) : Result := loadRegister .d .a s

/-- LD E,B (R101). -/
def execLd_E_B (s : State) : Result := loadRegister .e .b s

/-- LD E,C (R101). -/
def execLd_E_C (s : State) : Result := loadRegister .e .c s

/-- LD E,D (R101). -/
def execLd_E_D (s : State) : Result := loadRegister .e .d s

/-- LD E,E (R101). -/
def execLd_E_E (s : State) : Result := loadRegister .e .e s

/-- LD E,H (R101). -/
def execLd_E_H (s : State) : Result := loadRegister .e .h s

/-- LD E,L (R101). -/
def execLd_E_L (s : State) : Result := loadRegister .e .l s

/-- LD E,A (R101). -/
def execLd_E_A (s : State) : Result := loadRegister .e .a s

/-- LD H,B (R101). -/
def execLd_H_B (s : State) : Result := loadRegister .h .b s

/-- LD H,C (R101). -/
def execLd_H_C (s : State) : Result := loadRegister .h .c s

/-- LD H,D (R101). -/
def execLd_H_D (s : State) : Result := loadRegister .h .d s

/-- LD H,E (R101). -/
def execLd_H_E (s : State) : Result := loadRegister .h .e s

/-- LD H,H (R101). -/
def execLd_H_H (s : State) : Result := loadRegister .h .h s

/-- LD H,L (R101). -/
def execLd_H_L (s : State) : Result := loadRegister .h .l s

/-- LD H,A (R101). -/
def execLd_H_A (s : State) : Result := loadRegister .h .a s

/-- LD L,B (R101). -/
def execLd_L_B (s : State) : Result := loadRegister .l .b s

/-- LD L,C (R101). -/
def execLd_L_C (s : State) : Result := loadRegister .l .c s

/-- LD L,D (R101). -/
def execLd_L_D (s : State) : Result := loadRegister .l .d s

/-- LD L,E (R101). -/
def execLd_L_E (s : State) : Result := loadRegister .l .e s

/-- LD L,H (R101). -/
def execLd_L_H (s : State) : Result := loadRegister .l .h s

/-- LD L,L (R101). -/
def execLd_L_L (s : State) : Result := loadRegister .l .l s

/-- LD L,A (R101). -/
def execLd_L_A (s : State) : Result := loadRegister .l .a s

/-- LD A,B (R101). -/
def execLd_A_B (s : State) : Result := loadRegister .a .b s

/-- LD A,C (R101). -/
def execLd_A_C (s : State) : Result := loadRegister .a .c s

/-- LD A,D (R101). -/
def execLd_A_D (s : State) : Result := loadRegister .a .d s

/-- LD A,E (R101). -/
def execLd_A_E (s : State) : Result := loadRegister .a .e s

/-- LD A,H (R101). -/
def execLd_A_H (s : State) : Result := loadRegister .a .h s

/-- LD A,L (R101). -/
def execLd_A_L (s : State) : Result := loadRegister .a .l s

/-- LD A,A (R101). -/
def execLd_A_A (s : State) : Result := loadRegister .a .a s

/-- LD B,n (R102). -/
def execLd_B_n (s : State) : Result := loadImmediate .b s

/-- LD C,n (R102). -/
def execLd_C_n (s : State) : Result := loadImmediate .c s

/-- LD D,n (R102). -/
def execLd_D_n (s : State) : Result := loadImmediate .d s

/-- LD E,n (R102). -/
def execLd_E_n (s : State) : Result := loadImmediate .e s

/-- LD H,n (R102). -/
def execLd_H_n (s : State) : Result := loadImmediate .h s

/-- LD L,n (R102). -/
def execLd_L_n (s : State) : Result := loadImmediate .l s

/-- LD A,n (R102). -/
def execLd_A_n (s : State) : Result := loadImmediate .a s

end Sys2Proof.Machine
end

