-- ==== Sys2Proof/Machine/StoreMemory.lean ====
section
/-! DEFINITION. 8-bit stores to memory, indirect and indexed (43_ld8_store.md R108 to R113). -/

namespace Sys2Proof.Machine

/-- LD (HL),r, LD (BC),A, LD (DE),A (R108 to R110): `p <- Step(1)`, then the write of `x[r]` at the pair. -/
def storeIndirect (pair : WordReg) (r : Reg8) (s : State) : Result :=
  let (_, s) := s.stepPC 1
  busWrite s (s.readWord pair) (s.readByte (byteRegOf r)) fun s => .next s

/-- LD (HL),n (R111): `p <- Step(2)`, then n, then the write of n at the pair. -/
def storeImmediate (pair : WordReg) (s : State) : Result :=
  let (p, s) := s.stepPC 2
  withImmediate s p fun n => busWrite s (s.readWord pair) n fun s => .next s

/-- LD (IX+d),n, LD (IY+d),n (R112, R113): `p <- Step(4)`, then d, then n, then the write of n at the indexed
address. -/
def storeIndexed (xy : IndexReg) (s : State) : Result :=
  let (p, s) := s.stepPC 4
  withIndexedImmediate s xy p fun a n => busWrite s a n fun s => .next s

/-- LD (HL),B (R108). -/
def execLd_atHL_B (s : State) : Result := storeIndirect .hl .b s

/-- LD (HL),C (R108). -/
def execLd_atHL_C (s : State) : Result := storeIndirect .hl .c s

/-- LD (HL),D (R108). -/
def execLd_atHL_D (s : State) : Result := storeIndirect .hl .d s

/-- LD (HL),E (R108). -/
def execLd_atHL_E (s : State) : Result := storeIndirect .hl .e s

/-- LD (HL),H (R108). -/
def execLd_atHL_H (s : State) : Result := storeIndirect .hl .h s

/-- LD (HL),L (R108). -/
def execLd_atHL_L (s : State) : Result := storeIndirect .hl .l s

/-- LD (HL),A (R108). -/
def execLd_atHL_A (s : State) : Result := storeIndirect .hl .a s

/-- LD (BC),A (R109). -/
def execLd_atBC_A (s : State) : Result := storeIndirect .bc .a s

/-- LD (DE),A (R110). -/
def execLd_atDE_A (s : State) : Result := storeIndirect .de .a s

/-- LD (HL),n (R111). -/
def execLd_atHL_n (s : State) : Result := storeImmediate .hl s

/-- LD (IX+d),n (R112). -/
def execLd_atIX_n (s : State) : Result := storeIndexed .ix s

/-- LD (IY+d),n (R113). -/
def execLd_atIY_n (s : State) : Result := storeIndexed .iy s

end Sys2Proof.Machine
end

