-- ==== Sys2Proof/Machine/Invoke.lean ====
section
/-! DEFINITION. Invoking a dispatch entry (40_engine.md R87, R88): the instruction's effect, and the cycle cost the
entry carries, returned unchanged (R93). -/

namespace Sys2Proof.Machine

/-- What an invoked entry answers: the CPU and Bus state its instruction leaves, and its cycle count (R87). -/
def invoke (e : DispatchEntry) (s : State) : Host.Outcome (State × Nat) Fault Refusal :=
  match exec e.instr s with
  | .next t => .next (t, e.cycles)
  | .fault f => .fault f
  | .refused q => .refused q

end Sys2Proof.Machine
end

