-- ==== Sys2Proof/Machine/Step.lean ====
section
/-! DEFINITION. One machine step (40_engine.md R100). -/

namespace Sys2Proof.Machine

/-- `MachineStep` (R100): decode at PC, invoke the entry found, add the cost it returns to T. The instruction itself
advances PC over its own length (R91). A refusal or fault answers no state: the state is as it was (R96). -/
def step (s : State) : Host.Outcome State Fault Refusal := fetchOpcode s fun e => accumulate (invoke e s)

/-- The state with a table word's bytes at PC, where `step` fetches its next instruction (log 13, log 14). -/
def State.withFetchWord (s : State) (nbits w : Nat) : State :=
  s.withBus (s.bus.placeBytes (s.readWord .pc) (tableWordBytes nbits w))

end Sys2Proof.Machine
end

