-- ==== Sys2Proof/Machine/Boot.lean ====
section
/-! DEFINITION. Construction and boot (20_memory.md R47, R50, R51; 70_reset_and_hazards.md R132, R133, R138). -/

namespace Sys2Proof.Machine

/-- Builds one component: bounds checked (R51), a RAM's store all zero (R47), a ROM's store its image (R50), whose
length must be the component's size. -/
def buildComponent : ComponentSpec → Except Refusal Component
  | .ram start stop =>
    if boundsWf start stop then .ok { kind := .ram, start := start, stop := stop, store := [] }
    else .error (.componentBounds start stop)
  | .rom start stop image =>
    if boundsWf start stop then
      if image.length = stop - start then
        .ok { kind := .rom, start := start, stop := stop, store := Memory.ofBytes 0 image }
      else .error (.romImageSize start stop image.length)
    else .error (.componentBounds start stop)

/-- Builds the components in registration order; the first that is refused refuses the whole (R138 steps 1, 2). -/
def buildComponents : List ComponentSpec → Except Refusal Bus
  | [] => .ok []
  | spec :: rest =>
    match buildComponent spec with
    | .error r => .error r
    | .ok c =>
      match buildComponents rest with
      | .error r => .error r
      | .ok bus => .ok (c :: bus)

/-- Boot, in the order of R138: build and load the components, compose the Bus (refusing overlap under
STRICT_SINGLE_OWNER, R51), seed the CPU, T = 0. A malformed DISPATCH table is refused (log 19). -/
def boot (launch : Launch) : Result :=
  match buildComponents launch.components with
  | .error r => .refused r
  | .ok bus =>
    if launch.params.strictSingleOwner && !bus.disjoint then .refused .overlappingComponents
    else if !launch.params.dispatch.wf then .refused .dispatchTable
    else .next
      { regs := launch.regs, iff1 := launch.iff1, iff2 := launch.iff2, bus := bus, total := 0,
        params := launch.params }

end Sys2Proof.Machine
end

