-- ==== Sys2Proof/Machine/HostActions.lean ====
section
/-! DEFINITION. What the host may do between two instructions, and runs with the host's actions as an explicit input
list (40_engine.md R97, R98). -/

namespace Sys2Proof.Machine

/-- The host's actions (R97): registers by selector, the flip-flops, the flag operations of R30 to R34, the Bus's
reads and writes, and the start of a run (R94). Stopping is the end of the input list. -/
inductive HostAction where
  | readWord (w : WordReg)
  | writeWord (w : WordReg) (v : Word)
  | readByte (sel : ByteReg)
  | writeByte (sel : ByteReg) (v : Byte)
  | readIff1
  | readIff2
  | writeIff1 (v : Bool)
  | writeIff2 (v : Bool)
  | getFlag (f : Flag)
  | enableFlag (f : Flag)
  | disableFlag (f : Flag)
  | setFlag (f : Flag) (value : Bool)
  | clearFlags
  | busRead (a : Word)
  | busReadWord (a : Word)
  | busWrite (a : Word) (v : Byte)
  | busWriteWord (a : Word) (v : Word)
  | startRun
  deriving DecidableEq, Repr

/-- What a host action returns to the host. -/
inductive HostReply where
  | done
  | bool (v : Bool)
  | byte (v : Byte)
  | word (v : Word)
  deriving DecidableEq, Repr

/-- The state a host action leaves. The host's Bus operations never fault (R57, log 20). -/
def hostAct (s : State) : HostAction → State
  | .writeWord w v => s.writeWord w v
  | .writeByte sel v => s.writeByte sel v
  | .writeIff1 v => s.setIff1 v
  | .writeIff2 v => s.setIff2 v
  | .enableFlag f => s.enableFlag f
  | .disableFlag f => s.disableFlag f
  | .setFlag f value => s.setFlagInverted f value
  | .clearFlags => s.clearFlags
  | .busWrite a v => s.withBus (s.bus.write a v)
  | .busWriteWord a v => s.withBus (s.bus.writeWord a v)
  | .startRun => { s with total := 0 }
  | .readWord _ => s
  | .readByte _ => s
  | .readIff1 => s
  | .readIff2 => s
  | .getFlag _ => s
  | .busRead _ => s
  | .busReadWord _ => s

/-- What a host action answers, from the state before it. -/
def hostReply (s : State) : HostAction → HostReply
  | .readWord w => .word (s.readWord w)
  | .readByte sel => .byte (s.readByte sel)
  | .readIff1 => .bool s.iff1
  | .readIff2 => .bool s.iff2
  | .getFlag f => .bool (s.getFlag f)
  | .busRead a => .byte (s.bus.read a)
  | .busReadWord a => .word (s.bus.readWord a)
  | .writeWord _ _ => .done
  | .writeByte _ _ => .done
  | .writeIff1 _ => .done
  | .writeIff2 _ => .done
  | .enableFlag _ => .done
  | .disableFlag _ => .done
  | .setFlag _ _ => .done
  | .clearFlags => .done
  | .busWrite _ _ => .done
  | .busWriteWord _ _ => .done
  | .startRun => .done

/-- One input of a run: an instruction step, or a host action between two instructions (R97). -/
inductive RunInput where
  | instruction
  | host (action : HostAction)
  deriving DecidableEq, Repr

/-- A run over an input list (R97, R98): it ends at the first refusal or fault, and no later input acts (R96). -/
def runInputs : List RunInput → State → Result
  | [], s => .next s
  | .host action :: rest, s => runInputs rest (hostAct s action)
  | .instruction :: rest, s =>
    match step s with
    | .next t => runInputs rest t
    | .fault f => .fault f
    | .refused r => .refused r

end Sys2Proof.Machine
end

