-- ==== Sys2Proof/Safety.lean ====
section
/-! DEFINITION. The terms claims are stated in: what an instruction accesses, the invariant of the state, and what a
load, a store and an interrupt-vector load leave behind and leave alone. -/

namespace Sys2Proof.Machine

/-! ### Accesses -/

/-- A step may access the address: FAULT_ON_UNMAPPED is false, or some component covers it (R119). -/
def State.canAccess (s : State) (a : Word) : Bool := !s.params.faultOnUnmapped || s.bus.covers a

/-- The byte `k` bytes behind PC, as the Bus reads it: byte k of the instruction at PC (R73). -/
def State.instrByte (s : State) (k : Word) : Byte := s.bus.read (s.readWord .pc + k)

/-- The direct address nn of an instruction at PC (R78). -/
def State.directAddress (s : State) : Word := wordOf (s.instrByte 2) (s.instrByte 1)

/-- The address (IX+d) or (IY+d) of an instruction at PC (R77). -/
def State.indexedOperand (s : State) (w : WordReg) : Word := indexedAddress (s.readWord w) (s.instrByte 2)

/-- How far behind PC the operand bytes lie that an instruction reads, in reading order (R61, R73). -/
def operandOffsets : Format → List Word
  | .fmtA => []
  | .fmtB => [1]
  | .fmtC => [1, 2]
  | .fmtD => []
  | .fmtE => [2]
  | .fmtF => [2, 3]

/-- The address of an instruction's one data access, if it has one (R61). -/
def dataAddress (s : State) : Form → Option Word
  | .ldRR _ _ => none
  | .ldRN _ => none
  | .ldRHL _ => some (s.readWord .hl)
  | .ldABC => some (s.readWord .bc)
  | .ldADE => some (s.readWord .de)
  | .ldRIX _ => some (s.indexedOperand .ix)
  | .ldRIY _ => some (s.indexedOperand .iy)
  | .ldHLR _ => some (s.readWord .hl)
  | .ldBCA => some (s.readWord .bc)
  | .ldDEA => some (s.readWord .de)
  | .ldHLN => some (s.readWord .hl)
  | .ldIXN => some (s.indexedOperand .ix)
  | .ldIYN => some (s.indexedOperand .iy)
  | .ldANN => some s.directAddress
  | .ldNNA => some s.directAddress
  | .ldAI => none
  | .ldAR => none

/-- Every Bus address an instruction accesses behind its opcode, in the order of R66: operand bytes ascending, then
the data access (R61). -/
def accesses (i : Instr) (s : State) : List Word :=
  (operandOffsets i.format).map (fun k => s.readWord .pc + k) ++ (dataAddress s i.form).toList

/-- What a store instruction writes and where: the address and the byte (R108 to R113, R115). -/
def storedBy (s : State) : Form → Option (Word × Byte)
  | .ldHLR r => some (s.readWord .hl, s.readByte (byteRegOf r))
  | .ldBCA => some (s.readWord .bc, s.readByte .a)
  | .ldDEA => some (s.readWord .de, s.readByte .a)
  | .ldHLN => some (s.readWord .hl, s.instrByte 1)
  | .ldIXN => some (s.indexedOperand .ix, s.instrByte 3)
  | .ldIYN => some (s.indexedOperand .iy, s.instrByte 3)
  | .ldNNA => some (s.directAddress, s.readByte .a)
  | .ldRR _ _ => none
  | .ldRN _ => none
  | .ldRHL _ => none
  | .ldABC => none
  | .ldADE => none
  | .ldRIX _ => none
  | .ldRIY _ => none
  | .ldANN => none
  | .ldAI => none
  | .ldAR => none

/-- The opcode's bytes at PC, as the fetch reads them: byte 0 alone, or a prefix byte and byte 1 (R79). -/
def State.opcodeBytes (s : State) : List Byte :=
  if isDecodedPrefix (s.instrByte 0) = true then [s.instrByte 0, s.instrByte 1] else [s.instrByte 0]

/-- The fetch may access every opcode byte it reads (R79, R119). -/
abbrev State.canFetch (s : State) : Prop :=
  s.canAccess (s.readWord .pc) = true ∧
    (isDecodedPrefix (s.instrByte 0) = true → s.canAccess (s.readWord .pc + 1) = true)

/-! ### A step -/

/-- A step from `s` is the instruction `i` under the opcode bytes `op`: it ends as `exec i s` does, and to a next
state it adds `CYCLES[op]` in T, and nothing else (R100). -/
structure StepRuns (s : State) (op : List Byte) (i : Instr) : Prop where
  next : ∀ t, exec i s = .next t → step s = .next { t with total := t.total + cycleCost s.params op i }
  fault : ∀ f, exec i s = .fault f → step s = .fault f
  refused : ∀ q, exec i s = .refused q → step s = .refused q

/-! ### Encodings -/

/-- The register codes of R74, as the spec's table lists them. -/
def registerCode : Reg8 → BitVec 3
  | .b => 0b000
  | .c => 0b001
  | .d => 0b010
  | .e => 0b011
  | .h => 0b100
  | .l => 0b101
  | .a => 0b111

/-- The byte `01 ddd sss` of R73. -/
def byte01 (ddd sss : BitVec 3) : Byte := 0b01#2 ++ ddd ++ sss

/-- The byte `00 ddd 110` of R73. -/
def byte00 (ddd : BitVec 3) : Byte := 0b00#2 ++ ddd ++ 0b110#3

/-! ### The Bus -/

/-- Some component takes a write at the address (R54). -/
def Bus.writable (bus : Bus) (a : Word) : Bool := bus.any (fun c => c.acceptWrite a)

/-- The OR of the bytes the ROMs give at an address (R48, R53). -/
def Bus.romByte (bus : Bus) (a : Word) : Byte := Bus.read (bus.filter (fun c => c.kind == .rom)) a

/-- The same components but for their stores: kinds and bounds in registration order (R52, R58). -/
def Bus.layout (bus : Bus) : List (ComponentKind × Nat × Nat) := bus.map (fun c => (c.kind, c.start, c.stop))

/-- The ROMs with their stores, in registration order (R49). -/
def Bus.roms (bus : Bus) : Bus := bus.filter (fun c => c.kind == .rom)

/-! ### Construction -/

/-- The bounds a component is asked for (R51). -/
def specStart : ComponentSpec → Nat
  | .ram start _ => start
  | .rom start _ _ => start

/-- The exclusive end a component is asked for (R51). -/
def specStop : ComponentSpec → Nat
  | .ram _ stop => stop
  | .rom _ stop _ => stop

/-- What R51 and R50 admit: `0 <= inclusiveStart <= exclusiveEnd <= 65536`, and an image of exactly the size. -/
def SpecAdmitted : ComponentSpec → Prop
  | .ram start stop => start ≤ stop ∧ stop ≤ 65536
  | .rom start stop image => start ≤ stop ∧ stop ≤ 65536 ∧ image.length = stop - start

/-- No address lies in both components' ranges (R51). -/
def SpecsDisjoint (x y : ComponentSpec) : Prop :=
  ∀ a, ¬ (specStart x ≤ a ∧ a < specStop x ∧ specStart y ≤ a ∧ a < specStop y)

/-! ### The invariant -/

/-- What every state a session can reach satisfies: every component has admitted bounds and a store of its size in
canonical form (R51, R46, log 6); under STRICT_SINGLE_OWNER no ranges overlap (R51); the DISPATCH rows are a dispatch
table (R80). -/
structure State.Inv (s : State) : Prop where
  components : s.bus.wf = true
  singleOwner : s.params.strictSingleOwner = true → s.bus.disjoint = true
  dispatch : s.params.dispatch.wf = true

/-! ### Effects and frames -/

/-- `t` is `s` after a load of `v` into the byte register `dest`: `dest` holds `v`, every other byte selector (F
among them) and every other word selector but PC reads as before, PC is advanced by `len`, the flip-flops, the whole
Bus, the parameters and the host's T are unchanged. -/
structure LoadEffect (s t : State) (len : Word) (dest : ByteReg) (v : Byte) : Prop where
  value : t.readByte dest = v
  otherBytes : ∀ sel, sel ≠ dest → t.readByte sel = s.readByte sel
  otherWords : ∀ w : WordReg, w.cell ≠ dest.cell → w ≠ .pc → t.readWord w = s.readWord w
  pc : t.readWord .pc = s.readWord .pc + len
  iff1 : t.iff1 = s.iff1
  iff2 : t.iff2 = s.iff2
  bus : t.bus = s.bus
  params : t.params = s.params
  total : t.total = s.total

/-- `t` is `s` after a store of `v` at the address `a`: every byte selector and every word
selector but PC reads as before, PC is advanced by `len`, every address but `a` reads as before, `a` reads `v` ORed
with what ROMs give there when some RAM takes the write, nothing on the Bus changes when none does, the layout, the
ROMs, the flip-flops, the parameters and the host's T are unchanged. -/
structure StoreEffect (s t : State) (len : Word) (a : Word) (v : Byte) : Prop where
  bytes : ∀ sel, t.readByte sel = s.readByte sel
  words : ∀ w : WordReg, w ≠ .pc → t.readWord w = s.readWord w
  pc : t.readWord .pc = s.readWord .pc + len
  others : ∀ a', a' ≠ a → t.bus.read a' = s.bus.read a'
  stored : s.bus.writable a = true → t.bus.read a = v ||| s.bus.romByte a
  dropped : s.bus.writable a = false → t.bus = s.bus
  layout : t.bus.layout = s.bus.layout
  roms : t.bus.roms = s.bus.roms
  iff1 : t.iff1 = s.iff1
  iff2 : t.iff2 = s.iff2
  params : t.params = s.params
  total : t.total = s.total

/-- `t` is `s` after LD A,I or LD A,R loaded `v`: A holds `v`; S, Z, H, PV and N are as R116 says; C and bits 5 and 3
of F are kept; every other byte selector and every word selector but AF and PC reads as before; PC is advanced by 2;
the flip-flops, the Bus, the parameters and the host's T are unchanged. -/
structure InterruptVectorEffect (s t : State) (v : Byte) : Prop where
  value : t.readByte .a = v
  sign : t.getFlag .s = v.getLsbD 7
  zero : t.getFlag .z = (v == 0)
  halfCarry : t.getFlag .h = false
  parity : t.getFlag .pv = s.iff2
  subtract : t.getFlag .n = false
  carry : t.getFlag .c = s.getFlag .c
  bit5 : (t.readByte .f).getLsbD 5 = (s.readByte .f).getLsbD 5
  bit3 : (t.readByte .f).getLsbD 3 = (s.readByte .f).getLsbD 3
  otherBytes : ∀ sel, sel ≠ .a → sel ≠ .f → t.readByte sel = s.readByte sel
  otherWords : ∀ w : WordReg, w ≠ .af → w ≠ .pc → t.readWord w = s.readWord w
  pc : t.readWord .pc = s.readWord .pc + 2
  iff1 : t.iff1 = s.iff1
  iff2 : t.iff2 = s.iff2
  bus : t.bus = s.bus
  params : t.params = s.params
  total : t.total = s.total

/-- `t` is `s` with another F and nothing else changed: every other byte selector (A among them), every other cell, the
flip-flops, the Bus, T and the parameters are as before. -/
structure OnlyFWritten (s t : State) : Prop where
  bytes : ∀ sel, sel ≠ .f → t.readByte sel = s.readByte sel
  cells : ∀ c, c ≠ .af → t.regs.cell c = s.regs.cell c
  iff1 : t.iff1 = s.iff1
  iff2 : t.iff2 = s.iff2
  bus : t.bus = s.bus
  total : t.total = s.total
  params : t.params = s.params

/-! ### Comparing two runs -/

/-- The two states agree on the CPU and the Bus and on every parameter but the cost table; T and CYCLES may
differ (R141). -/
structure SameButCycles (s t : State) : Prop where
  regs : t.regs = s.regs
  iff1 : t.iff1 = s.iff1
  iff2 : t.iff2 = s.iff2
  bus : t.bus = s.bus
  strictSingleOwner : t.params.strictSingleOwner = s.params.strictSingleOwner
  faultOnUnmapped : t.params.faultOnUnmapped = s.params.faultOnUnmapped
  dispatch : t.params.dispatch = s.params.dispatch

/-- Two results agree in kind and reason, and next states agree but for T and CYCLES. -/
def ResultsSameButCycles : Result → Result → Prop
  | .next s, .next t => SameButCycles s t
  | .fault f, .fault g => f = g
  | .refused q, .refused r => q = r
  | _, _ => False

end Sys2Proof.Machine
end

