-- ==== Sys2Proof/Certificates/Slice0/Obligations.lean ====
section
/-! DEFINITION. The statements for the provers. Each docstring names the rule of spec/ it formalises. -/

open Sys2Proof Sys2Proof.Machine

/-! ### Construction, reset and the invariant -/

/-- The invariant holds of the reset state. The registers, flip-flops and Bus of that state are the model's choice
(log 1, log 2, log 3). -/
def Obligations.ResetSatisfiesInvariant : Prop := State.reset.Inv

/-- R45, R47, R51, R132: for admitted bounds a RAM is built with them (decision D15), accepts exactly the addresses in
them, and every byte of its store reads zero. -/
def Obligations.BuiltRamReadsZero : Prop :=
  ∀ start stop, start ≤ stop → stop ≤ 65536 →
    ∃ c, buildComponent (.ram start stop) = .ok c ∧ c.kind = .ram ∧ c.start = start ∧ c.stop = stop ∧
      (∀ a : Word, c.acceptRead a = decide (start ≤ a.toNat ∧ a.toNat < stop)) ∧
      (∀ a : Word, c.acceptWrite a = c.acceptRead a) ∧
      (∀ a : Word, c.acceptRead a = true → c.read a = 0)

/-- R48, R50, R133: a ROM is built with its image, byte k at `inclusiveStart + k`, and accepts no write. -/
def Obligations.BuiltRomReadsItsImage : Prop :=
  ∀ start stop (image : List Byte), start ≤ stop → stop ≤ 65536 → image.length = stop - start →
    ∃ c, buildComponent (.rom start stop image) = .ok c ∧ c.kind = .rom ∧ c.start = start ∧ c.stop = stop ∧
      (∀ a : Word, c.acceptRead a = decide (start ≤ a.toNat ∧ a.toNat < stop)) ∧
      (∀ a : Word, c.acceptWrite a = false) ∧
      (∀ k b, image[k]? = some b → c.read (BitVec.ofNat 16 (start + k)) = b)

/-- R51, R138: boot answers a state exactly when every component has admitted bounds (and a ROM an image of its size),
no two ranges share an address if STRICT_SINGLE_OWNER is true, and the DISPATCH parameter is a dispatch table; else it
refuses. (That a wrong image size or malformed DISPATCH rows are refused is the model's choice, log 19.) -/
def Obligations.BootSucceedsExactlyOnAdmittedBus : Prop :=
  ∀ launch : Launch,
    ((∃ s, boot launch = .next s) ↔
      (∀ spec ∈ launch.components, SpecAdmitted spec) ∧
      (launch.params.strictSingleOwner = true → launch.components.Pairwise SpecsDisjoint) ∧
      launch.params.dispatch.wf = true) ∧
    ∀ f, boot launch ≠ .fault f

/-- R52, R132, R133, R138: a state that boot answers satisfies the invariant, holds the seeded CPU, the parameters and
T = 0, and its Bus is, in registration order, the components built from the launch's, each as `buildComponent` (whose
RAM and ROM `BuiltRamReadsZero` and `BuiltRomReadsItsImage` describe) builds it: one for each, and no other. -/
def Obligations.BootedStateSatisfiesInvariant : Prop :=
  ∀ launch s, boot launch = .next s →
    s.Inv ∧ s.regs = launch.regs ∧ s.iff1 = launch.iff1 ∧ s.iff2 = launch.iff2 ∧
      s.params = launch.params ∧ s.total = 0 ∧
      s.bus.length = launch.components.length ∧
      ∀ (k : Nat) (spec : ComponentSpec), launch.components[k]? = some spec →
        ∃ c : Component, s.bus[k]? = some c ∧ buildComponent spec = .ok c

/-! ### Registers and flags -/

/-- R18, R21: a word is always `high*256 + low` of its halves, and the round-trip laws of the selectors.
Which letter is the high half is decision D8 (log 24). -/
def Obligations.SelectorsReadBack : Prop :=
  ∀ s : State,
    (∀ w v, (s.writeWord w v).readWord w = v) ∧
    (∀ sel v, (s.writeByte sel v).readByte sel = v) ∧
    (∀ v, (s.writeWord .af v).readByte .a = v.extractLsb' 8 8 ∧ (s.writeWord .af v).readByte .f = v.extractLsb' 0 8) ∧
    (∀ v, (s.writeWord .bc v).readByte .b = v.extractLsb' 8 8 ∧ (s.writeWord .bc v).readByte .c = v.extractLsb' 0 8) ∧
    (∀ v, (s.writeWord .de v).readByte .d = v.extractLsb' 8 8 ∧ (s.writeWord .de v).readByte .e = v.extractLsb' 0 8) ∧
    (∀ v, (s.writeWord .hl v).readByte .h = v.extractLsb' 8 8 ∧ (s.writeWord .hl v).readByte .l = v.extractLsb' 0 8) ∧
    (∀ hi lo : Byte, ((s.writeByte .a hi).writeByte .f lo).readWord .af = hi ++ lo ∧
      ((s.writeByte .b hi).writeByte .c lo).readWord .bc = hi ++ lo ∧
      ((s.writeByte .d hi).writeByte .e lo).readWord .de = hi ++ lo ∧
      ((s.writeByte .h hi).writeByte .l lo).readWord .hl = hi ++ lo) ∧
    (s.readWord .af).toNat = (s.readByte .a).toNat * 256 + (s.readByte .f).toNat ∧
    (s.readWord .bc).toNat = (s.readByte .b).toNat * 256 + (s.readByte .c).toNat ∧
    (s.readWord .de).toNat = (s.readByte .d).toNat * 256 + (s.readByte .e).toNat ∧
    (s.readWord .hl).toNat = (s.readByte .h).toNat * 256 + (s.readByte .l).toNat ∧
    (s.regs.cell .ir).toNat = (s.readByte .i).toNat * 256 + (s.readByte .r).toNat

/-- R19: a byte write changes only the selected half: every other byte selector and every cell but its own keeps its
value, as do the flip-flops, the Bus, T and the parameters. -/
def Obligations.ByteWriteChangesOnlyItsHalf : Prop :=
  ∀ (s : State) sel v,
    (s.writeByte sel v).readByte sel = v ∧
    (∀ sel', sel' ≠ sel → (s.writeByte sel v).readByte sel' = s.readByte sel') ∧
    (∀ c, c ≠ sel.cell → (s.writeByte sel v).regs.cell c = s.regs.cell c) ∧
    (s.writeByte sel v).iff1 = s.iff1 ∧ (s.writeByte sel v).iff2 = s.iff2 ∧
    (s.writeByte sel v).bus = s.bus ∧ (s.writeByte sel v).total = s.total ∧
    (s.writeByte sel v).params = s.params

/-- R15, R37: no cell shares storage with another, and the flip-flops are bits of no cell and independent of each
other. -/
def Obligations.CellsAndFlipFlopsAreIndependent : Prop :=
  ∀ (s : State) w v x,
    (∀ c, c ≠ w.cell → (s.writeWord w v).regs.cell c = s.regs.cell c) ∧
    (s.writeWord w v).iff1 = s.iff1 ∧ (s.writeWord w v).iff2 = s.iff2 ∧ (s.writeWord w v).bus = s.bus ∧
    (s.setIff1 x).iff1 = x ∧ (s.setIff1 x).iff2 = s.iff2 ∧ (s.setIff1 x).regs = s.regs ∧
    (s.setIff2 x).iff2 = x ∧ (s.setIff2 x).iff1 = s.iff1 ∧ (s.setIff2 x).regs = s.regs

/-- R26: Step returns the PC before and adds n to PC, wrapping; nothing else changes. -/
def Obligations.StepAdvancesPC : Prop :=
  ∀ (s : State) n,
    (s.stepPC n).1 = s.readWord .pc ∧
    ((s.stepPC n).2.readWord .pc).toNat = ((s.readWord .pc).toNat + n.toNat) % 65536 ∧
    (∀ c, c ≠ .pc → (s.stepPC n).2.regs.cell c = s.regs.cell c) ∧
    (s.stepPC n).2.iff1 = s.iff1 ∧ (s.stepPC n).2.iff2 = s.iff2 ∧ (s.stepPC n).2.bus = s.bus ∧
    (s.stepPC n).2.total = s.total ∧ (s.stepPC n).2.params = s.params

/-- R27, R30 to R33: enable and disable set and clear one bit of F, get reads it, every other bit of F and everything
else of the state keeps its value; clearFlags zeroes F entirely, bits 5 and 3 too, and leaves everything else alone. -/
def Obligations.FlagOperations : Prop :=
  ∀ (s : State) f,
    (s.enableFlag f).getFlag f = true ∧ (s.disableFlag f).getFlag f = false ∧
    (s.getFlag .s = (s.readByte .f).getLsbD 7 ∧ s.getFlag .z = (s.readByte .f).getLsbD 6 ∧
      s.getFlag .h = (s.readByte .f).getLsbD 4 ∧ s.getFlag .pv = (s.readByte .f).getLsbD 2 ∧
      s.getFlag .n = (s.readByte .f).getLsbD 1 ∧ s.getFlag .c = (s.readByte .f).getLsbD 0) ∧
    (∀ k, k < 8 → (s.readByte .f).getLsbD k = (s.readWord .af).getLsbD k) ∧
    (∀ k, k < 8 → k ≠ f.bit →
      ((s.enableFlag f).readByte .f).getLsbD k = (s.readByte .f).getLsbD k ∧
      ((s.disableFlag f).readByte .f).getLsbD k = (s.readByte .f).getLsbD k) ∧
    OnlyFWritten s (s.enableFlag f) ∧ OnlyFWritten s (s.disableFlag f) ∧ OnlyFWritten s s.clearFlags ∧
    s.clearFlags.readByte .f = 0 ∧ s.clearFlags.getFlag f = false

/-- R34: the host's `set` is inverted: true disables the bit and false enables it (D24, log 22). -/
def Obligations.SetFlagIsInverted : Prop :=
  ∀ (s : State) f,
    hostAct s (.setFlag f true) = s.disableFlag f ∧ hostAct s (.setFlag f false) = s.enableFlag f ∧
    (hostAct s (.setFlag f true)).getFlag f = false ∧ (hostAct s (.setFlag f false)).getFlag f = true

/-! ### The Bus -/

/-- R53: a byte read is the bitwise OR of the accepting components' bytes: a bit is set exactly when some accepting
component's byte has it. -/
def Obligations.BusReadOrsAcceptingComponents : Prop :=
  ∀ (bus : Bus) (a : Word) (k : Nat),
    (bus.read a).getLsbD k = bus.any (fun c => c.acceptRead a && (c.read a).getLsbD k)

/-- R54: a byte write reaches every component whose accept_write holds, and no other component. -/
def Obligations.BusWriteReachesEveryAcceptingComponent : Prop :=
  ∀ (bus : Bus) (a : Word) (v : Byte), bus.wf = true →
    (bus.write a v).length = bus.length ∧
    ∀ (k : Nat) (c : Component), bus[k]? = some c → ∃ c' : Component, (bus.write a v)[k]? = some c' ∧
      c'.kind = c.kind ∧ c'.start = c.start ∧ c'.stop = c.stop ∧
      (c.acceptWrite a = true → c'.read a = v) ∧
      (∀ a', a' ≠ a → c.acceptRead a' = true → c'.read a' = c.read a') ∧
      (c.acceptWrite a = false → c' = c)

/-- R53, R54: what a read gives after a write, at the address written and at every other. -/
def Obligations.ReadAfterWrite : Prop :=
  ∀ (bus : Bus) (a : Word) (v : Byte), bus.wf = true →
    (bus.write a v).read a = (if bus.writable a = true then v else 0) ||| bus.romByte a ∧
    (∀ a', a' ≠ a → (bus.write a v).read a' = bus.read a') ∧
    (bus.write a v).wf = true

/-- R55: a word read is little-endian and wraps: the high byte comes from `a +16 1`. -/
def Obligations.WordReadIsLittleEndian : Prop :=
  ∀ (bus : Bus) (a : Word),
    (bus.readWord a).toNat = (bus.read (a + 1)).toNat * 256 + (bus.read a).toNat ∧
    (bus.readWord 0xFFFF).toNat = (bus.read 0x0000).toNat * 256 + (bus.read 0xFFFF).toNat

/-- R56: a word write delivers `v & 0xFF` to `a` and `(v >> 8) & 0xFF` to `a +16 1`, as two byte writes. Where a RAM
takes each and no ROM drives the Bus, the word reads back. These are the intended semantics (C2, D23, log 22). -/
def Obligations.WordWriteIsTwoByteWrites : Prop :=
  ∀ (bus : Bus) (a v : Word),
    bus.writeWord a v = (bus.write a (BitVec.ofNat 8 v.toNat)).write (a + 1) (BitVec.ofNat 8 (v.toNat / 256)) ∧
    (bus.wf = true → bus.writable a = true → bus.writable (a + 1) = true →
      bus.romByte a = 0 → bus.romByte (a + 1) = 0 →
      ((bus.writeWord a v).read a).toNat = v.toNat % 256 ∧
      ((bus.writeWord a v).read (a + 1)).toNat = v.toNat / 256 ∧
      (bus.writeWord a v).readWord a = v ∧
      (∀ a', a' ≠ a → a' ≠ a + 1 → (bus.writeWord a v).read a' = bus.read a'))

/-- R57: reads outside every component yield 0; writes outside every writable range are dropped, a ROM's too. -/
def Obligations.UncoveredReadsZeroAndDropsWrites : Prop :=
  ∀ (bus : Bus) (a : Word) (v : Byte),
    (bus.covers a = false → bus.read a = 0 ∧ bus.write a v = bus) ∧
    (bus.writable a = false → bus.write a v = bus)

/-- R49: any number of Bus writes leaves every ROM's store, and every read of an address no RAM takes, as it was. -/
def Obligations.RomWritesAreIdempotent : Prop :=
  ∀ (bus : Bus) (writes : List (Word × Byte)),
    (writes.foldl (fun b w => Bus.write b w.1 w.2) bus).roms = bus.roms ∧
    ∀ a, bus.writable a = false → (writes.foldl (fun b w => Bus.write b w.1 w.2) bus).read a = bus.read a

/-- R71: the order of the components changes no result. -/
def Obligations.ComponentOrderChangesNoResult : Prop :=
  ∀ (bus bus' : Bus), bus.Perm bus' → ∀ (a : Word) (v : Byte),
    bus.read a = bus'.read a ∧ (bus.write a v).Perm (bus'.write a v)

/-! ### Encoding and decoding

The byte values in these statements are the spec's own choice, `[from general knowledge, not in source]` (D1, log 5). -/

/-- R73, R79, R80: decoding the bytes of a well-formed instruction gives it back, whatever follows. -/
def Obligations.DecodeOfEncode : Prop :=
  ∀ (x : Asm) (rest : List Byte), x.wf = true → decode (encode x ++ rest) = .ok (x, rest)

/-- R79, R80: whatever the decoder reads is well formed and its encoding is the bytes it was read from: each word has
one meaning. -/
def Obligations.EncodeOfDecode : Prop :=
  ∀ (bytes : List Byte) (x : Asm) (rest : List Byte),
    decode bytes = .ok (x, rest) → x.wf = true ∧ bytes = encode x ++ rest

/-- R79, R80: the decode procedure computes exactly the dispatch table, on all bytes. -/
def Obligations.DecodeProcedureIsDispatchTable : Prop :=
  ∀ bytes : List Byte, dispatchLookup (.custom standardRows) bytes = dispatchLookup .standard bytes

/-- R72, R80, R81: the table has 95 entries, no bytes stand twice, every opcode stands in it, and a well-formed
instruction's encoding is 1 byte long for layout A, 2 for B and D, 3 for C and E, 4 for F. -/
def Obligations.DispatchTableAndLengths : Prop :=
  standardRows.length = 95 ∧ (standardRows.map Prod.fst).Nodup ∧ DispatchTable.wf (.custom standardRows) = true ∧
    (∀ i, (i.opcode, i) ∈ standardRows) ∧
    ∀ x : Asm, x.wf = true → (encode x).length = match x.instr.format with
      | .fmtA => 1 | .fmtB => 2 | .fmtC => 3 | .fmtD => 2 | .fmtE => 3 | .fmtF => 4

/-- R79, R80: words written out from the spec's encodings, one or more of each family. -/
def Obligations.WrittenOutWordsDecode : Prop :=
  decodeOpcode [0b01000001] = some .ld_B_C ∧ decodeOpcode [0b01111101] = some .ld_A_L ∧
  decodeOpcode [0b00000110] = some .ld_B_n ∧ decodeOpcode [0b01011110] = some .ld_E_atHL ∧
  decodeOpcode [0b00001010] = some .ld_A_atBC ∧ decodeOpcode [0b00011010] = some .ld_A_atDE ∧
  decodeOpcode [0b11011101, 0b01100110] = some .ld_H_atIX ∧
  decodeOpcode [0b11111101, 0b01111110] = some .ld_A_atIY ∧ decodeOpcode [0b01110111] = some .ld_atHL_A ∧
  decodeOpcode [0b00000010] = some .ld_atBC_A ∧ decodeOpcode [0b00010010] = some .ld_atDE_A ∧
  decodeOpcode [0b00110110] = some .ld_atHL_n ∧ decodeOpcode [0b11011101, 0b00110110] = some .ld_atIX_n ∧
  decodeOpcode [0b11111101, 0b00110110] = some .ld_atIY_n ∧ decodeOpcode [0b00111010] = some .ld_A_atnn ∧
  decodeOpcode [0b00110010] = some .ld_atnn_A ∧ decodeOpcode [0b11101101, 0b01010111] = some .ld_A_I ∧
  decodeOpcode [0b11101101, 0b01011111] = some .ld_A_R

/-- R82: named encodings that are not admitted: NOP, HALT, every 0xCB, the indexed stores of a register, LD I,A,
LD R,A, a repeated prefix, and every byte behind 0xED but 0x57 and 0x5F. -/
def Obligations.UnadmittedEncodingsAreRefused : Prop :=
  decodeOpcode [0x00] = none ∧ decodeOpcode [0x76] = none ∧ decodeOpcode [0xCB] = none ∧
  (∀ b1, decodeOpcode [0xCB, b1] = none) ∧
  (∀ r, decodeOpcode [0xDD, byte01 0b110 (registerCode r)] = none ∧
    decodeOpcode [0xFD, byte01 0b110 (registerCode r)] = none) ∧
  decodeOpcode [0xED, 0x47] = none ∧ decodeOpcode [0xED, 0x4F] = none ∧
  decodeOpcode [0xDD, 0xDD] = none ∧ decodeOpcode [0xDD, 0xCB] = none ∧ decodeOpcode [0xFD, 0xCB] = none ∧
  (∀ b1, b1 ≠ 0x57 → b1 ≠ 0x5F → decodeOpcode [0xED, b1] = none)

/-! ### The step -/

/-- R79, R89, R100: when the bytes at PC decode to an instruction and the fetch may access them, a step under the
default dispatch table ends as that instruction's meaning does at the same state (the fetch changes nothing), and to a
next state it adds only the cost of the opcode's bytes, in T. -/
def Obligations.StepRunsTheDecodedInstruction : Prop :=
  ∀ (s : State) (x : Asm) (rest : List Byte),
    decode [s.instrByte 0, s.instrByte 1, s.instrByte 2, s.instrByte 3] = .ok (x, rest) →
    s.params.dispatch = .standard → s.canFetch → StepRuns s x.instr.opcode x.instr

/-- R79, R80, R82: a step under any dispatch table looks up byte 0, or a prefix byte and byte 1, runs the opcode it
finds, and refuses the bytes where it finds none (that refusal is decision D2; another table's keys: log 11). -/
def Obligations.StepResolvesOrRefuses : Prop :=
  ∀ s : State, s.canFetch →
    let op := if isDecodedPrefix (s.instrByte 0) = true then [s.instrByte 0, s.instrByte 1] else [s.instrByte 0]
    (∀ i, dispatchLookup s.params.dispatch op = some i → StepRuns s op i) ∧
    (dispatchLookup s.params.dispatch op = none → step s = .refused (.unadmittedOpcode op))

/-- R119: an opcode fetch at an address no component covers faults when FAULT_ON_UNMAPPED is true (D10; the order
of the faults: log 12). -/
def Obligations.UncoveredFetchFaults : Prop :=
  ∀ s : State, s.params.faultOnUnmapped = true →
    (s.bus.covers (s.readWord .pc) = false → step s = .fault (.unmappedAccess (s.readWord .pc))) ∧
    (s.bus.covers (s.readWord .pc) = true → isDecodedPrefix (s.instrByte 0) = true →
      s.bus.covers (s.readWord .pc + 1) = false → step s = .fault (.unmappedAccess (s.readWord .pc + 1)))

/-- R119: an instruction faults at the first of its operand and data accesses that no component covers, when
FAULT_ON_UNMAPPED is true, and at no other time; a ROM address is covered (D10; the order of the faults: log 12). -/
def Obligations.ExecFaultsExactlyOnUncoveredAccess : Prop :=
  ∀ (i : Instr) (s : State) (a : Word),
    exec i s = .fault (.unmappedAccess a) ↔
      s.params.faultOnUnmapped = true ∧ (accesses i s).find? (fun a => !s.bus.covers a) = some a

/-- R118, R119: with FAULT_ON_UNMAPPED false every admitted instruction completes in every state, and no step
faults. -/
def Obligations.NothingFaultsByDefault : Prop :=
  ∀ s : State, s.params.faultOnUnmapped = false →
    (∀ i, ∃ t, exec i s = .next t) ∧ ∀ f, step s ≠ .fault f

/-- R91: after any instruction PC is the PC before plus the instruction's length. -/
def Obligations.PCAdvancesByTheLength : Prop :=
  ∀ (i : Instr) (s t : State), exec i s = .next t →
    t.readWord .pc = s.readWord .pc + BitVec.ofNat 16 i.length

/-- R8, R87, R92, R93, R94, R100: an invoked entry returns its cost unchanged, and a step adds to T the cost of the
opcode's bytes: the one the session's table declares for them, verbatim, and the form's default where it declares
none. So two entries of one instruction may have two costs. (That the first of two declarations for the same bytes
counts is the model's choice, log 10; the defaults are decision D3, log 21.) -/
def Obligations.TotalGrowsByTheCost : Prop :=
  (∀ (e : DispatchEntry) (s t : State) n,
    invoke e s = .next (t, n) ↔ exec e.instr s = .next t ∧ n = e.cycles) ∧
  ∀ s t : State, step s = .next t →
    ∃ i, dispatchLookup s.params.dispatch s.opcodeBytes = some i ∧
      (∀ before n rest, s.params.cycleOverrides = before ++ (s.opcodeBytes, n) :: rest →
        (∀ m, (s.opcodeBytes, m) ∉ before) → t.total = s.total + n) ∧
      ((∀ n, (s.opcodeBytes, n) ∉ s.params.cycleOverrides) → t.total = s.total + defaultCycles i.form)

/-- R22, R29: F is written only by LD A,I and LD A,R. -/
def Obligations.OnlyVectorLoadsWriteF : Prop :=
  ∀ (i : Instr) (s t : State), i ≠ .ld_A_I → i ≠ .ld_A_R → exec i s = .next t → t.readByte .f = s.readByte .f

/-- R23, R24, R25, R35, R36, R37: no step writes a shadow cell, IX, IY, SP, IR (so R is not incremented: D6, log 17),
iff1 or iff2. -/
def Obligations.NoStepWritesTheSpecialRegisters : Prop :=
  ∀ s t : State, step s = .next t →
    (∀ c ∈ [RegCell.afAlt, .bcAlt, .deAlt, .hlAlt, .ix, .iy, .sp, .ir], t.regs.cell c = s.regs.cell c) ∧
    t.iff1 = s.iff1 ∧ t.iff2 = s.iff2

/-- The invariant is kept by every step, from every state that has it. -/
def Obligations.StepKeepsInvariant : Prop := ∀ s t : State, s.Inv → step s = .next t → t.Inv

/-- R49, R50, R52, R97: over any run with any host actions no ROM's store, no component's kind or bounds and no
parameter changes, "for the remainder of the session", and the invariant is kept. -/
def Obligations.RunsKeepInvariantAndRoms : Prop :=
  ∀ (inputs : List RunInput) (s t : State), runInputs inputs s = .next t →
    t.bus.roms = s.bus.roms ∧ t.bus.layout = s.bus.layout ∧ t.params = s.params ∧ (s.Inv → t.Inv)

/-- R96, R97, R98: a run over no input leaves the state as it is, a run of one instruction is one step, a run of one
host action is that action; a run ends at its first refusal or fault, and no later input changes its outcome; a run
that ends normally goes on from the state it left. So a run is its inputs' steps and actions, one after the other. -/
def Obligations.RunEndsAtFirstStop : Prop :=
  ∀ (first later : List RunInput) (s : State),
    runInputs [] s = .next s ∧ runInputs [.instruction] s = step s ∧
    (∀ action, runInputs [.host action] s = .next (hostAct s action)) ∧
    (∀ r, runInputs first s = .refused r → runInputs (first ++ later) s = .refused r) ∧
    (∀ f, runInputs first s = .fault f → runInputs (first ++ later) s = .fault f) ∧
    (∀ t, runInputs first s = .next t → runInputs (first ++ later) s = runInputs later t)

/-- R94, R97: the host's actions, told by what it reads back: a write by selector, of a flip-flop, of the Bus, or a
flag operation has its effect, an action that only reads changes nothing and replies with what it reads, and starting
a run sets T to 0 and nothing else. (That a host's Bus access never faults is log 20.) -/
def Obligations.HostActionsReadAndWriteTheState : Prop :=
  ∀ s : State,
    (∀ w v, hostReply (hostAct s (.writeWord w v)) (.readWord w) = .word v) ∧
    (∀ sel v, hostReply (hostAct s (.writeByte sel v)) (.readByte sel) = .byte v) ∧
    (∀ x, hostReply (hostAct s (.writeIff1 x)) .readIff1 = .bool x ∧
      hostReply (hostAct s (.writeIff2 x)) .readIff2 = .bool x) ∧
    (∀ f, hostReply (hostAct s (.enableFlag f)) (.getFlag f) = .bool true ∧
      hostReply (hostAct s (.disableFlag f)) (.getFlag f) = .bool false ∧
      hostReply (hostAct s .clearFlags) (.getFlag f) = .bool false ∧
      ∀ x, hostReply (hostAct s (.setFlag f x)) (.getFlag f) = .bool (!x)) ∧
    (∀ a (v : Byte), hostAct s (.busWrite a v) = { s with bus := s.bus.write a v }) ∧
    (∀ a (v : Word), hostAct s (.busWriteWord a v) = { s with bus := s.bus.writeWord a v }) ∧
    (∀ a, hostReply s (.busRead a) = .byte (s.bus.read a) ∧
      hostReply s (.busReadWord a) = .word (s.bus.readWord a)) ∧
    (∀ action ∈ [HostAction.readIff1, .readIff2], hostAct s action = s) ∧
    (∀ w, hostAct s (.readWord w) = s) ∧ (∀ sel, hostAct s (.readByte sel) = s) ∧
    (∀ f, hostAct s (.getFlag f) = s) ∧
    (∀ a, hostAct s (.busRead a) = s ∧ hostAct s (.busReadWord a) = s) ∧
    hostAct s .startRun = { s with total := 0 }

/-- R141: no rule depends on the cost table or on T: runs from states that differ only in them agree in everything
else. -/
def Obligations.CostsInfluenceNoState : Prop :=
  ∀ (inputs : List RunInput) (s s' : State), SameButCycles s s' →
    ResultsSameButCycles (runInputs inputs s) (runInputs inputs s')

/-- R23, R25, R37, R116: no instruction reads a shadow cell, SP or iff1: a step from a state with another value there
ends the same way, with that value kept. -/
def Obligations.ShadowsSPAndIff1AreNeverRead : Prop :=
  ∀ (s : State) (c : RegCell) (v : Word) (x : Bool), c ∈ [RegCell.afAlt, .bcAlt, .deAlt, .hlAlt, .sp] →
    (∀ t, step s = .next t → step ((s.setCell c v).setIff1 x) = .next ((t.setCell c v).setIff1 x)) ∧
    (∀ f, step s = .fault f → step ((s.setCell c v).setIff1 x) = .fault f) ∧
    (∀ r, step s = .refused r → step ((s.setCell c v).setIff1 x) = .refused r)

/-- R69, R140: a store into the next instruction's opcode byte is seen by its fetch. A step that runs LD (HL),A with
HL at the next instruction, where a RAM takes the write and no ROM drives the Bus, is followed by a step that runs the
one-byte opcode A held. -/
def Obligations.StoreIntoNextOpcodeIsFetched : Prop :=
  ∀ (s t : State) (i : Instr), s.Inv → s.params.dispatch = .standard → s.params.faultOnUnmapped = false →
    s.instrByte 0 = 0x77 → s.readWord .hl = s.readWord .pc + 1 →
    s.bus.writable (s.readWord .hl) = true → s.bus.romByte (s.readWord .hl) = 0 →
    i.opcode = [s.readByte .a] → step s = .next t → StepRuns t i.opcode i

/-- The state with a table word placed at PC runs that word's instruction as its very next step, under the default
dispatch table; every other part of the state but the Bus is kept (the model's loading convention, log 13, log 14). -/
def Obligations.FetchWordRunsTheTableInstruction : Prop :=
  ∀ (s : State) (nbits w : Nat) (i : Instr), s.Inv → s.params.dispatch = .standard →
    decodeTableWord nbits w = some i →
    StepRuns (s.withFetchWord nbits w) i.opcode i ∧
    (s.withFetchWord nbits w).regs = s.regs ∧ (s.withFetchWord nbits w).iff1 = s.iff1 ∧
    (s.withFetchWord nbits w).iff2 = s.iff2 ∧ (s.withFetchWord nbits w).params = s.params ∧
    (s.withFetchWord nbits w).total = s.total

/-! ### The instructions, one statement for each rule R101 to R117

Each says: its opcodes decode to it, its default cost, and that it completes with its effect and its frame, for every
register and every state in which its accesses are allowed (always, by default: R57, R118). T is in the frame: the
step adds the cost (`TotalGrowsByTheCost`). In each, the opcode's byte values are the spec's own choice, marked
`[from general knowledge, not in source]` (D1, log 5), its default cost is decision D3 (log 21) and the order of its
accesses decision D26 (log 18); the effect is the rule's. -/

/-- R101: LD r,r', all 49 opcodes. Bytes: D1, log 5; cost: D3, log 21. -/
def Obligations.LdRegisterRegister : Prop :=
  ∀ (r r' : Reg8) (s : State),
    decodeOpcode [byte01 (registerCode r) (registerCode r')] = some (Form.ldRR r r').instr ∧
    defaultCycles (.ldRR r r') = 1 ∧
    ∃ t, exec (Form.ldRR r r').instr s = .next t ∧
      LoadEffect s t 1 (byteRegOf r) (s.readByte (byteRegOf r'))

/-- R102: LD r,n, all 7 opcodes. Bytes: D1, log 5; cost: D3, log 21. -/
def Obligations.LdRegisterImmediate : Prop :=
  ∀ (r : Reg8) (s : State), s.canAccess (s.readWord .pc + 1) = true →
    decodeOpcode [byte00 (registerCode r)] = some (Form.ldRN r).instr ∧ defaultCycles (.ldRN r) = 2 ∧
    ∃ t, exec (Form.ldRN r).instr s = .next t ∧
      LoadEffect s t 2 (byteRegOf r) (s.bus.read (s.readWord .pc + 1))

/-- R103: LD r,(HL), all 7 opcodes; the address is the HL before the write, for r = H and r = L too. Bytes: D1, log 5;
cost: D3, log 21. -/
def Obligations.LdRegisterFromHL : Prop :=
  ∀ (r : Reg8) (s : State), s.canAccess (s.readWord .hl) = true →
    decodeOpcode [byte01 (registerCode r) 0b110] = some (Form.ldRHL r).instr ∧ defaultCycles (.ldRHL r) = 2 ∧
    ∃ t, exec (Form.ldRHL r).instr s = .next t ∧
      LoadEffect s t 1 (byteRegOf r) (s.bus.read (s.readWord .hl))

/-- R104: LD A,(BC). Bytes: D1, log 5; cost: D3, log 21. -/
def Obligations.LdAFromBC : Prop :=
  ∀ s : State, s.canAccess (s.readWord .bc) = true →
    decodeOpcode [0x0A] = some .ld_A_atBC ∧ defaultCycles .ldABC = 2 ∧
    ∃ t, exec .ld_A_atBC s = .next t ∧ LoadEffect s t 1 .a (s.bus.read (s.readWord .bc))

/-- R105: LD A,(DE). Bytes: D1, log 5; cost: D3, log 21. -/
def Obligations.LdAFromDE : Prop :=
  ∀ s : State, s.canAccess (s.readWord .de) = true →
    decodeOpcode [0x1A] = some .ld_A_atDE ∧ defaultCycles .ldADE = 2 ∧
    ∃ t, exec .ld_A_atDE s = .next t ∧ LoadEffect s t 1 .a (s.bus.read (s.readWord .de))

/-- R106: LD r,(IX+d), all 7 opcodes: d is the signed byte at p+2, the address wraps. Bytes: D1, log 5; cost: D3,
log 21. -/
def Obligations.LdRegisterFromIX : Prop :=
  ∀ (r : Reg8) (s : State),
    let a := s.readWord .ix + (s.bus.read (s.readWord .pc + 2)).signExtend 16
    s.canAccess (s.readWord .pc + 2) = true → s.canAccess a = true →
    decodeOpcode [0xDD, byte01 (registerCode r) 0b110] = some (Form.ldRIX r).instr ∧
    defaultCycles (.ldRIX r) = 5 ∧
    ∃ t, exec (Form.ldRIX r).instr s = .next t ∧
      LoadEffect s t 3 (byteRegOf r) (s.bus.read a)

/-- R107: LD r,(IY+d), all 7 opcodes. Bytes: D1, log 5; cost: D3, log 21. -/
def Obligations.LdRegisterFromIY : Prop :=
  ∀ (r : Reg8) (s : State),
    let a := s.readWord .iy + (s.bus.read (s.readWord .pc + 2)).signExtend 16
    s.canAccess (s.readWord .pc + 2) = true → s.canAccess a = true →
    decodeOpcode [0xFD, byte01 (registerCode r) 0b110] = some (Form.ldRIY r).instr ∧
    defaultCycles (.ldRIY r) = 5 ∧
    ∃ t, exec (Form.ldRIY r).instr s = .next t ∧
      LoadEffect s t 3 (byteRegOf r) (s.bus.read a)

/-- R108: LD (HL),r, all 7 opcodes; r = H and r = L store HL's own halves. Bytes: D1, log 5; cost: D3, log 21. -/
def Obligations.StoreRegisterAtHL : Prop :=
  ∀ (r : Reg8) (s : State), s.Inv → s.canAccess (s.readWord .hl) = true →
    decodeOpcode [byte01 0b110 (registerCode r)] = some (Form.ldHLR r).instr ∧ defaultCycles (.ldHLR r) = 2 ∧
    ∃ t, exec (Form.ldHLR r).instr s = .next t ∧
      StoreEffect s t 1 (s.readWord .hl) (s.readByte (byteRegOf r))

/-- R109: LD (BC),A. Bytes: D1, log 5; cost: D3, log 21. -/
def Obligations.StoreAAtBC : Prop :=
  ∀ s : State, s.Inv → s.canAccess (s.readWord .bc) = true →
    decodeOpcode [0x02] = some .ld_atBC_A ∧ defaultCycles .ldBCA = 2 ∧
    ∃ t, exec .ld_atBC_A s = .next t ∧ StoreEffect s t 1 (s.readWord .bc) (s.readByte .a)

/-- R110: LD (DE),A. Bytes: D1, log 5; cost: D3, log 21. -/
def Obligations.StoreAAtDE : Prop :=
  ∀ s : State, s.Inv → s.canAccess (s.readWord .de) = true →
    decodeOpcode [0x12] = some .ld_atDE_A ∧ defaultCycles .ldDEA = 2 ∧
    ∃ t, exec .ld_atDE_A s = .next t ∧ StoreEffect s t 1 (s.readWord .de) (s.readByte .a)

/-- R111: LD (HL),n; n is read before the write. Bytes: D1, log 5; cost: D3, log 21. -/
def Obligations.StoreImmediateAtHL : Prop :=
  ∀ s : State, s.Inv → s.canAccess (s.readWord .pc + 1) = true → s.canAccess (s.readWord .hl) = true →
    decodeOpcode [0x36] = some .ld_atHL_n ∧ defaultCycles .ldHLN = 3 ∧
    ∃ t, exec .ld_atHL_n s = .next t ∧
      StoreEffect s t 2 (s.readWord .hl) (s.bus.read (s.readWord .pc + 1))

/-- R112: LD (IX+d),n; d and n are read before the write. Bytes: D1, log 5; cost: D3, log 21. -/
def Obligations.StoreImmediateAtIX : Prop :=
  ∀ s : State,
    let a := s.readWord .ix + (s.bus.read (s.readWord .pc + 2)).signExtend 16
    s.Inv → s.canAccess (s.readWord .pc + 2) = true → s.canAccess (s.readWord .pc + 3) = true →
    s.canAccess a = true →
    decodeOpcode [0xDD, 0x36] = some .ld_atIX_n ∧ defaultCycles .ldIXN = 5 ∧
    ∃ t, exec .ld_atIX_n s = .next t ∧
      StoreEffect s t 4 a (s.bus.read (s.readWord .pc + 3))

/-- R113: LD (IY+d),n. Bytes: D1, log 5; cost: D3, log 21. -/
def Obligations.StoreImmediateAtIY : Prop :=
  ∀ s : State,
    let a := s.readWord .iy + (s.bus.read (s.readWord .pc + 2)).signExtend 16
    s.Inv → s.canAccess (s.readWord .pc + 2) = true → s.canAccess (s.readWord .pc + 3) = true →
    s.canAccess a = true →
    decodeOpcode [0xFD, 0x36] = some .ld_atIY_n ∧ defaultCycles .ldIYN = 5 ∧
    ∃ t, exec .ld_atIY_n s = .next t ∧
      StoreEffect s t 4 a (s.bus.read (s.readWord .pc + 3))

/-- R114: LD A,(nn); nn is the little-endian word at p+1. Bytes: D1, log 5; cost: D3, log 21. -/
def Obligations.LdAFromDirect : Prop :=
  ∀ s : State,
    let nn := s.bus.readWord (s.readWord .pc + 1)
    s.canAccess (s.readWord .pc + 1) = true → s.canAccess (s.readWord .pc + 2) = true → s.canAccess nn = true →
    decodeOpcode [0x3A] = some .ld_A_atnn ∧ defaultCycles .ldANN = 4 ∧
    ∃ t, exec .ld_A_atnn s = .next t ∧ LoadEffect s t 3 .a (s.bus.read nn)

/-- R115: LD (nn),A; one byte is stored, at nn. Bytes: D1, log 5; cost: D3, log 21. -/
def Obligations.StoreAAtDirect : Prop :=
  ∀ s : State,
    let nn := s.bus.readWord (s.readWord .pc + 1)
    s.Inv → s.canAccess (s.readWord .pc + 1) = true → s.canAccess (s.readWord .pc + 2) = true →
    s.canAccess nn = true →
    decodeOpcode [0x32] = some .ld_atnn_A ∧ defaultCycles .ldNNA = 4 ∧
    ∃ t, exec .ld_atnn_A s = .next t ∧ StoreEffect s t 3 nn (s.readByte .a)

/-- R116: LD A,I with its flags. Bytes: D1, log 5; cost: D3, log 21; bits 5 and 3 of F: D7, log 17. -/
def Obligations.LdAFromI : Prop :=
  ∀ s : State,
    decodeOpcode [0xED, 0x57] = some .ld_A_I ∧ defaultCycles .ldAI = 2 ∧
    ∃ t, exec .ld_A_I s = .next t ∧ InterruptVectorEffect s t (s.readByte .i)

/-- R117: LD A,R with its flags; the value is R as last written (D6, log 17). Bytes: D1, log 5; cost: D3, log 21; bits
5 and 3 of F: D7, log 17. -/
def Obligations.LdAFromR : Prop :=
  ∀ s : State,
    decodeOpcode [0xED, 0x5F] = some .ld_A_R ∧ defaultCycles .ldAR = 2 ∧
    ∃ t, exec .ld_A_R s = .next t ∧ InterruptVectorEffect s t (s.readByte .r)
end

