-- ==== Sys2Proof/Laws/State.lean ====
section
/-! SUPPORT. The state's small lemmas: one per field per update, and each accessor after each update. -/

namespace Sys2Proof.Machine

/-! ### Fields after an update -/

@[simp] theorem State.setCell_regs (s : State) (c v) : (s.setCell c v).regs = s.regs.setCell c v := rfl
@[simp] theorem State.setCell_iff1 (s : State) (c v) : (s.setCell c v).iff1 = s.iff1 := rfl
@[simp] theorem State.setCell_iff2 (s : State) (c v) : (s.setCell c v).iff2 = s.iff2 := rfl
@[simp] theorem State.setCell_bus (s : State) (c v) : (s.setCell c v).bus = s.bus := rfl
@[simp] theorem State.setCell_total (s : State) (c v) : (s.setCell c v).total = s.total := rfl
@[simp] theorem State.setCell_params (s : State) (c v) : (s.setCell c v).params = s.params := rfl

@[simp] theorem State.writeWord_iff1 (s : State) (w v) : (s.writeWord w v).iff1 = s.iff1 := rfl
@[simp] theorem State.writeWord_iff2 (s : State) (w v) : (s.writeWord w v).iff2 = s.iff2 := rfl
@[simp] theorem State.writeWord_bus (s : State) (w v) : (s.writeWord w v).bus = s.bus := rfl
@[simp] theorem State.writeWord_total (s : State) (w v) : (s.writeWord w v).total = s.total := rfl
@[simp] theorem State.writeWord_params (s : State) (w v) : (s.writeWord w v).params = s.params := rfl

@[simp] theorem State.writeByte_iff1 (s : State) (x v) : (s.writeByte x v).iff1 = s.iff1 := rfl
@[simp] theorem State.writeByte_iff2 (s : State) (x v) : (s.writeByte x v).iff2 = s.iff2 := rfl
@[simp] theorem State.writeByte_bus (s : State) (x v) : (s.writeByte x v).bus = s.bus := rfl
@[simp] theorem State.writeByte_total (s : State) (x v) : (s.writeByte x v).total = s.total := rfl
@[simp] theorem State.writeByte_params (s : State) (x v) : (s.writeByte x v).params = s.params := rfl

@[simp] theorem State.addCycles_regs (s : State) (n) : (s.addCycles n).regs = s.regs := rfl
@[simp] theorem State.addCycles_iff1 (s : State) (n) : (s.addCycles n).iff1 = s.iff1 := rfl
@[simp] theorem State.addCycles_iff2 (s : State) (n) : (s.addCycles n).iff2 = s.iff2 := rfl
@[simp] theorem State.addCycles_bus (s : State) (n) : (s.addCycles n).bus = s.bus := rfl
@[simp] theorem State.addCycles_total (s : State) (n) : (s.addCycles n).total = s.total + n := rfl
@[simp] theorem State.addCycles_params (s : State) (n) : (s.addCycles n).params = s.params := rfl

@[simp] theorem State.setIff1_regs (s : State) (v) : (s.setIff1 v).regs = s.regs := rfl
@[simp] theorem State.setIff1_iff1 (s : State) (v) : (s.setIff1 v).iff1 = v := rfl
@[simp] theorem State.setIff1_iff2 (s : State) (v) : (s.setIff1 v).iff2 = s.iff2 := rfl
@[simp] theorem State.setIff1_bus (s : State) (v) : (s.setIff1 v).bus = s.bus := rfl
@[simp] theorem State.setIff1_total (s : State) (v) : (s.setIff1 v).total = s.total := rfl
@[simp] theorem State.setIff1_params (s : State) (v) : (s.setIff1 v).params = s.params := rfl

@[simp] theorem State.setIff2_regs (s : State) (v) : (s.setIff2 v).regs = s.regs := rfl
@[simp] theorem State.setIff2_iff1 (s : State) (v) : (s.setIff2 v).iff1 = s.iff1 := rfl
@[simp] theorem State.setIff2_iff2 (s : State) (v) : (s.setIff2 v).iff2 = v := rfl
@[simp] theorem State.setIff2_bus (s : State) (v) : (s.setIff2 v).bus = s.bus := rfl
@[simp] theorem State.setIff2_total (s : State) (v) : (s.setIff2 v).total = s.total := rfl
@[simp] theorem State.setIff2_params (s : State) (v) : (s.setIff2 v).params = s.params := rfl

@[simp] theorem State.withBus_regs (s : State) (bus) : (s.withBus bus).regs = s.regs := rfl
@[simp] theorem State.withBus_iff1 (s : State) (bus) : (s.withBus bus).iff1 = s.iff1 := rfl
@[simp] theorem State.withBus_iff2 (s : State) (bus) : (s.withBus bus).iff2 = s.iff2 := rfl
@[simp] theorem State.withBus_bus (s : State) (bus) : (s.withBus bus).bus = bus := rfl
@[simp] theorem State.withBus_total (s : State) (bus) : (s.withBus bus).total = s.total := rfl
@[simp] theorem State.withBus_params (s : State) (bus) : (s.withBus bus).params = s.params := rfl

@[simp] theorem State.stepPC_fst (s : State) (n) : (s.stepPC n).1 = s.readWord .pc := rfl
@[simp] theorem State.stepPC_snd (s : State) (n) :
    (s.stepPC n).2 = s.writeWord .pc (s.readWord .pc + n) := rfl

/-! ### Accessors that see only the register file -/

@[simp] theorem State.readWord_addCycles (s : State) (n w) : (s.addCycles n).readWord w = s.readWord w := rfl
@[simp] theorem State.readByte_addCycles (s : State) (n x) : (s.addCycles n).readByte x = s.readByte x := rfl
@[simp] theorem State.getFlag_addCycles (s : State) (n f) : (s.addCycles n).getFlag f = s.getFlag f := rfl
@[simp] theorem State.readWord_withBus (s : State) (bus w) : (s.withBus bus).readWord w = s.readWord w := rfl
@[simp] theorem State.readByte_withBus (s : State) (bus x) : (s.withBus bus).readByte x = s.readByte x := rfl
@[simp] theorem State.withBus_writeWord (s : State) (bus w v) :
    (s.writeWord w v).withBus bus = (s.withBus bus).writeWord w v := rfl
@[simp] theorem State.readWord_setIff1 (s : State) (v w) : (s.setIff1 v).readWord w = s.readWord w := rfl
@[simp] theorem State.readByte_setIff1 (s : State) (v x) : (s.setIff1 v).readByte x = s.readByte x := rfl
@[simp] theorem State.readWord_setIff2 (s : State) (v w) : (s.setIff2 v).readWord w = s.readWord w := rfl
@[simp] theorem State.readByte_setIff2 (s : State) (v x) : (s.setIff2 v).readByte x = s.readByte x := rfl

/-! ### Access checks see only the Bus and the parameters -/

@[simp] theorem State.accessFaults_writeWord (s : State) (w v a) :
    (s.writeWord w v).accessFaults a = s.accessFaults a := rfl
@[simp] theorem State.accessFaults_writeByte (s : State) (x v a) :
    (s.writeByte x v).accessFaults a = s.accessFaults a := rfl

/-- An access faults exactly when it is not allowed. -/
theorem State.accessFaults_eq (s : State) (a) : s.accessFaults a = !s.canAccess a := by
  cases h : s.params.faultOnUnmapped <;> simp [State.accessFaults, State.canAccess, h]

/-- With FAULT_ON_UNMAPPED false, R8's default, every access is allowed. -/
theorem State.canAccess_of_default (s : State) (h : s.params.faultOnUnmapped = false) (a) :
    s.canAccess a = true := by simp [State.canAccess, h]

end Sys2Proof.Machine
end

