-- ==== Sys2Proof/Laws/Bus.lean ====
section
/-! SUPPORT. The Bus's laws (20_memory.md): a store reads back what was set and keeps its canonical form; a Bus write
keeps the layout, the ROMs and every component's well-formedness, and touches only its own address. -/

namespace Sys2Proof.Machine

/-! ### Stores -/

/-- Below every listed offset a canonical store reads the unlisted value. -/
theorem Memory.get_of_lt {low a : Nat} {m : Memory} (hw : Memory.wfFrom low m = true) (ha : a < low) :
    m.get a = Memory.unlisted := by
  induction m generalizing low with
  | nil => rfl
  | cons cell rest ih =>
    obtain ⟨k, b⟩ := cell
    simp only [Memory.wfFrom, Bool.and_eq_true, decide_eq_true_eq] at hw
    have : k ≠ a := by omega
    simp [Memory.get, this, ih hw.2 (by omega)]

theorem Memory.wfFrom_mono {low low' : Nat} {m : Memory} (hw : Memory.wfFrom low m = true) (h : low' ≤ low) :
    Memory.wfFrom low' m = true := by
  cases m with
  | nil => rfl
  | cons cell rest =>
    simp only [Memory.wfFrom, Bool.and_eq_true, decide_eq_true_eq] at hw ⊢
    exact ⟨⟨by omega, hw.1.2⟩, hw.2⟩

/-- The other offsets of a store are untouched by a set; this holds of any list. -/
theorem Memory.get_set_ne (m : Memory) {a a' : Nat} (v : Byte) (h : a' ≠ a) : (m.set a v).get a' = m.get a' := by
  induction m with
  | nil => by_cases hv : v = Memory.unlisted <;> simp [Memory.set, Memory.get, hv, h.symm]
  | cons cell rest ih =>
    obtain ⟨k, b⟩ := cell
    simp only [Memory.set]
    split
    · simp [Memory.get, ih]
    · split
      · rename_i hk; subst hk
        split <;> simp [Memory.get, h.symm]
      · split <;> simp [Memory.get, h.symm]

/-- A canonical store reads back the byte that was set. -/
theorem Memory.get_set_same {low : Nat} {m : Memory} (hw : Memory.wfFrom low m = true) (a : Nat) (v : Byte) :
    (m.set a v).get a = v := by
  induction m generalizing low with
  | nil => by_cases hv : v = Memory.unlisted <;> simp [Memory.set, Memory.get, hv]
  | cons cell rest ih =>
    obtain ⟨k, b⟩ := cell
    simp only [Memory.wfFrom, Bool.and_eq_true, decide_eq_true_eq] at hw
    simp only [Memory.set]
    split
    · rename_i hk
      have : k ≠ a := by omega
      simp [Memory.get, this, ih hw.2]
    · split
      · rename_i hk; subst hk
        split
        · rename_i hv; rw [hv]; exact Memory.get_of_lt hw.2 (by omega)
        · simp [Memory.get]
      · split
        · rename_i h1 h2 hv
          have : k ≠ a := h2
          simp only [Memory.get, this, if_false]
          rw [hv]; exact Memory.get_of_lt hw.2 (by omega)
        · simp [Memory.get]

/-- A set keeps the canonical form. -/
theorem Memory.wfFrom_set {low : Nat} {m : Memory} (hw : Memory.wfFrom low m = true) {a : Nat} (ha : low ≤ a)
    (v : Byte) : Memory.wfFrom low (m.set a v) = true := by
  induction m generalizing low with
  | nil => by_cases hv : v = Memory.unlisted <;> simp [Memory.set, Memory.wfFrom, hv, ha]
  | cons cell rest ih =>
    obtain ⟨k, b⟩ := cell
    have hw' := hw
    simp only [Memory.wfFrom, Bool.and_eq_true, decide_eq_true_eq] at hw'
    simp only [Memory.set]
    split
    · simp only [Memory.wfFrom, Bool.and_eq_true, decide_eq_true_eq]
      exact ⟨hw'.1, ih hw'.2 (by omega)⟩
    · split
      · rename_i hk; subst hk
        split
        · exact Memory.wfFrom_mono hw'.2 (by omega)
        · rename_i hv
          simp [Memory.wfFrom, hw'.1.1, hv, hw'.2]
      · split
        · exact hw
        · rename_i h1 h2 hv
          simp only [Memory.wfFrom, Bool.and_eq_true, decide_eq_true_eq]
          exact ⟨⟨ha, by simpa using hv⟩, ⟨⟨by omega, hw'.1.2⟩, hw'.2⟩⟩

/-- A set below the size keeps every listed offset below the size. -/
theorem Memory.all_lt_set {size : Nat} {m : Memory} (hm : m.all (fun cell => decide (cell.1 < size)) = true)
    {a : Nat} (ha : a < size) (v : Byte) : (m.set a v).all (fun cell => decide (cell.1 < size)) = true := by
  induction m with
  | nil => by_cases hv : v = Memory.unlisted <;> simp [Memory.set, hv, ha]
  | cons cell rest ih =>
    obtain ⟨k, b⟩ := cell
    rw [List.all_cons, Bool.and_eq_true] at hm
    have cons : ∀ (k : Nat) (b : Byte) (l : Memory), k < size →
        l.all (fun cell => decide (cell.1 < size)) = true →
        List.all ((k, b) :: l) (fun cell => decide (cell.1 < size)) = true := fun k b l hk hl => by
      rw [List.all_cons, hl, Bool.and_true]; exact decide_eq_true hk
    have hk : k < size := of_decide_eq_true hm.1
    simp only [Memory.set]
    split
    · exact cons k b _ hk (ih hm.2)
    · split
      · split
        · exact hm.2
        · exact cons a v _ ha hm.2
      · split
        · exact cons k b _ hk hm.2
        · exact cons a v _ ha (cons k b _ hk hm.2)

/-- The one operation on a store keeps its canonical form (log 6). -/
theorem Memory.wf_set {size : Nat} {m : Memory} (hw : m.wf size = true) {a : Nat} (ha : a < size) (v : Byte) :
    (m.set a v).wf size = true := by
  simp only [Memory.wf, Bool.and_eq_true] at hw ⊢
  exact ⟨Memory.wfFrom_set hw.1 (Nat.zero_le a) v, Memory.all_lt_set hw.2 ha v⟩

/-- A canonical store is fixed by what it reads: equal contents are equal data. -/
theorem Memory.eq_of_get_eq {low : Nat} {m m' : Memory} (hw : Memory.wfFrom low m = true)
    (hw' : Memory.wfFrom low m' = true) (h : ∀ a, m.get a = m'.get a) : m = m' := by
  induction m generalizing low m' with
  | nil =>
    cases m' with
    | nil => rfl
    | cons cell rest =>
      obtain ⟨k, b⟩ := cell
      simp only [Memory.wfFrom, Bool.and_eq_true, decide_eq_true_eq] at hw'
      have := h k
      simp [Memory.get] at this
      simp [← this] at hw'
  | cons cell rest ih =>
    obtain ⟨k, b⟩ := cell
    cases m' with
    | nil =>
      simp only [Memory.wfFrom, Bool.and_eq_true, decide_eq_true_eq] at hw
      have := h k
      simp [Memory.get] at this
      simp [this] at hw
    | cons cell' rest' =>
      obtain ⟨k', b'⟩ := cell'
      simp only [Memory.wfFrom, Bool.and_eq_true, decide_eq_true_eq] at hw hw'
      have hk : k = k' := by
        rcases Nat.lt_trichotomy k k' with hlt | heq | hgt
        · have := h k
          simp only [Memory.get, if_true, show k' ≠ k by omega, if_false] at this
          rw [Memory.get_of_lt hw'.2 (by omega)] at this
          simp [this] at hw
        · exact heq
        · have := h k'
          simp only [Memory.get, if_true, show k ≠ k' by omega, if_false] at this
          rw [Memory.get_of_lt hw.2 (by omega)] at this
          simp [← this] at hw'
      subst hk
      have hb : b = b' := by simpa [Memory.get] using h k
      subst hb
      have : rest = rest' := by
        refine ih hw.2 hw'.2 (fun a => ?_)
        by_cases ha : k = a
        · subst ha
          rw [Memory.get_of_lt hw.2 (by omega), Memory.get_of_lt hw'.2 (by omega)]
        · simpa [Memory.get, ha] using h a
      rw [this]

/-! ### Components -/

@[simp] theorem Component.write_kind (c : Component) (a v) : (c.write a v).kind = c.kind := by
  unfold Component.write; split <;> rfl
@[simp] theorem Component.write_start (c : Component) (a v) : (c.write a v).start = c.start := by
  unfold Component.write; split <;> rfl
@[simp] theorem Component.write_stop (c : Component) (a v) : (c.write a v).stop = c.stop := by
  unfold Component.write; split <;> rfl

/-- A component that takes a write takes reads there (R45). -/
theorem Component.acceptRead_of_acceptWrite {c : Component} {a : Word} (h : c.acceptWrite a = true) :
    c.acceptRead a = true := by
  unfold Component.acceptWrite at h; split at h <;> simp_all

theorem Component.acceptWrite_ram {c : Component} {a : Word} (h : c.kind = .ram) :
    c.acceptWrite a = c.acceptRead a := by simp [Component.acceptWrite, h]

theorem Component.acceptWrite_rom {c : Component} {a : Word} (h : c.kind = .rom) : c.acceptWrite a = false := by
  simp [Component.acceptWrite, h]

/-- What the Bus does to one component on a write (R54). -/
def Component.busWrite (c : Component) (a : Word) (v : Byte) : Component :=
  if c.acceptWrite a then c.write a v else c

theorem Bus.write_eq (bus : Bus) (a v) : bus.write a v = bus.map (fun c => c.busWrite a v) := rfl

@[simp] theorem Component.busWrite_kind (c : Component) (a v) : (c.busWrite a v).kind = c.kind := by
  unfold Component.busWrite; split <;> simp
@[simp] theorem Component.busWrite_start (c : Component) (a v) : (c.busWrite a v).start = c.start := by
  unfold Component.busWrite; split <;> simp
@[simp] theorem Component.busWrite_stop (c : Component) (a v) : (c.busWrite a v).stop = c.stop := by
  unfold Component.busWrite; split <;> simp

@[simp] theorem Component.busWrite_acceptRead (c : Component) (a v a') :
    (c.busWrite a v).acceptRead a' = c.acceptRead a' := by simp [Component.acceptRead]
@[simp] theorem Component.busWrite_acceptWrite (c : Component) (a v a') :
    (c.busWrite a v).acceptWrite a' = c.acceptWrite a' := by simp [Component.acceptWrite]

theorem Component.busWrite_of_rom {c : Component} (h : c.kind = .rom) (a v) : c.busWrite a v = c := by
  simp [Component.busWrite, Component.acceptWrite_rom h]

/-- A component keeps its form under a Bus write. -/
theorem Component.wf_busWrite {c : Component} (h : c.wf = true) (a v) : (c.busWrite a v).wf = true := by
  unfold Component.busWrite
  split
  · rename_i hw
    have hr := Component.acceptRead_of_acceptWrite hw
    simp only [Component.acceptRead, Bool.and_eq_true, decide_eq_true_eq] at hr
    simp only [Component.wf, Bool.and_eq_true, Component.write, hw, if_true] at h ⊢
    exact ⟨h.1, Memory.wf_set h.2 (by omega) v⟩
  · exact h

/-- Where the component is read elsewhere than written, nothing changes (R46). -/
theorem Component.read_busWrite_ne (c : Component) {a a' : Word} (v) (h : a' ≠ a) (hr : c.acceptRead a' = true) :
    (c.busWrite a v).read a' = c.read a' := by
  unfold Component.busWrite
  split
  · rename_i hw
    have ha := Component.acceptRead_of_acceptWrite hw
    have hr' : (c.write a v).acceptRead a' = true := by simpa [Component.acceptRead] using hr
    simp only [Component.read, hr', hr, if_true]
    simp only [Component.write, hw, if_true]
    apply Memory.get_set_ne
    simp only [Component.acceptRead, Bool.and_eq_true, decide_eq_true_eq] at ha hr
    intro e
    exact h (BitVec.eq_of_toNat_eq (by omega))
  · rfl

/-- Where it is read as written, an accepting component gives the byte (R46, R54). -/
theorem Component.read_busWrite_same {c : Component} {a : Word} (hw : c.wf = true) (v)
    (ha : c.acceptWrite a = true) : (c.busWrite a v).read a = v := by
  have hr := Component.acceptRead_of_acceptWrite ha
  have hr' : (c.write a v).acceptRead a = true := by simpa [Component.acceptRead] using hr
  simp only [Component.wf, Memory.wf, Bool.and_eq_true] at hw
  simp only [Component.busWrite, ha, if_true, Component.read, hr']
  simp only [Component.write, ha, if_true]
  exact Memory.get_set_same hw.2.1 _ _

/-! ### The Bus: reads -/

/-- The byte a component puts on the Bus: its byte where it accepts, else nothing (R53). -/
def Component.drive (c : Component) (a : Word) : Byte := if c.acceptRead a then c.read a else 0

theorem Bus.foldl_drive (bus : Bus) (a : Word) (acc : Byte) :
    bus.foldl (fun acc c => if c.acceptRead a then acc ||| c.read a else acc) acc = acc ||| bus.read a := by
  have key : ∀ (bus : Bus) (acc : Byte),
      bus.foldl (fun acc c => if c.acceptRead a then acc ||| c.read a else acc) acc =
        acc ||| bus.foldl (fun acc c => if c.acceptRead a then acc ||| c.read a else acc) 0 := by
    intro bus
    induction bus with
    | nil => intro acc; simp
    | cons c rest ih =>
      intro acc
      simp only [List.foldl_cons]
      rw [ih, ih (if c.acceptRead a then 0 ||| c.read a else 0)]
      by_cases h : c.acceptRead a = true <;> simp [h, BitVec.or_assoc]
  exact key bus acc

@[simp] theorem Bus.read_nil (a : Word) : Bus.read [] a = 0 := rfl

@[simp] theorem Bus.read_cons (c : Component) (rest : Bus) (a : Word) :
    Bus.read (c :: rest) a = c.drive a ||| Bus.read rest a := by
  unfold Bus.read
  simp only [List.foldl_cons]
  rw [Bus.foldl_drive]
  by_cases h : c.acceptRead a = true <;> simp [Component.drive, h, Bus.read]

theorem Bus.read_append (bus bus' : Bus) (a : Word) :
    Bus.read (bus ++ bus') a = Bus.read bus a ||| Bus.read bus' a := by
  induction bus with
  | nil => simp
  | cons c rest ih => simp [ih, BitVec.or_assoc]

/-- A read where no component accepts gives zero (R57). -/
theorem Bus.read_uncovered {bus : Bus} {a : Word} (h : bus.covers a = false) : bus.read a = 0 := by
  induction bus with
  | nil => rfl
  | cons c rest ih =>
    simp only [Bus.covers, List.any_cons, Bool.or_eq_false_iff] at h
    simp [Component.drive, h.1, ih h.2]

/-! ### The Bus: writes -/

@[simp] theorem Bus.write_nil (a v) : Bus.write [] a v = [] := rfl
@[simp] theorem Bus.write_cons (c : Component) (rest : Bus) (a v) :
    Bus.write (c :: rest) a v = c.busWrite a v :: Bus.write rest a v := rfl

@[simp] theorem Bus.layout_write (bus : Bus) (a v) : (bus.write a v).layout = bus.layout := by
  induction bus with
  | nil => rfl
  | cons c rest ih => simpa [Bus.layout] using ih

@[simp] theorem Bus.covers_write (bus : Bus) (a v a') : (bus.write a v).covers a' = bus.covers a' := by
  induction bus with
  | nil => rfl
  | cons c rest ih =>
    simp only [Bus.covers, Bus.write_cons, List.any_cons, Component.busWrite_acceptRead] at ih ⊢
    rw [ih]

/-- A Bus write never changes a ROM (R49). -/
@[simp] theorem Bus.roms_write (bus : Bus) (a v) : (bus.write a v).roms = bus.roms := by
  induction bus with
  | nil => rfl
  | cons c rest ih =>
    cases h : c.kind with
    | ram => simpa [Bus.roms, h] using ih
    | rom => simpa [Bus.roms, h, Component.busWrite_of_rom h] using ih

/-- The memory of the reset state is in canonical form. -/
theorem State.reset_bus_wf : State.reset.bus.wf = true := by decide

theorem Bus.wf_write {bus : Bus} (h : bus.wf = true) (a v) : (bus.write a v).wf = true := by
  induction bus with
  | nil => rfl
  | cons c rest ih =>
    simp only [Bus.wf, Bus.write_cons, List.all_cons, Bool.and_eq_true] at h ih ⊢
    exact ⟨Component.wf_busWrite h.1 a v, ih h.2⟩

@[simp] theorem Bus.disjoint_write (bus : Bus) (a v) : (bus.write a v).disjoint = bus.disjoint := by
  have all : ∀ (rest : Bus) (s e : Nat),
      (rest.write a v).all (fun c' => rangesDisjoint s e c'.start c'.stop) =
        rest.all (fun c' => rangesDisjoint s e c'.start c'.stop) := by
    intro rest s e
    induction rest with
    | nil => rfl
    | cons c rest ih => simp [ih]
  induction bus with
  | nil => rfl
  | cons c rest ih => simp [Bus.disjoint, ih, all]

/-- A write leaves every other address's read alone (R54). -/
theorem Bus.read_write_ne (bus : Bus) {a a' : Word} (v) (h : a' ≠ a) : (bus.write a v).read a' = bus.read a' := by
  induction bus with
  | nil => rfl
  | cons c rest ih =>
    simp only [Bus.write_cons, Bus.read_cons, ih]
    congr 1
    by_cases hr : c.acceptRead a' = true
    · simp [Component.drive, hr, Component.read_busWrite_ne c v h hr]
    · simp [Component.drive, hr]

/-- A write no component takes changes nothing (R57). -/
theorem Bus.write_unwritable {bus : Bus} {a : Word} (h : bus.writable a = false) (v) : bus.write a v = bus := by
  induction bus with
  | nil => rfl
  | cons c rest ih =>
    simp only [Bus.writable, List.any_cons, Bool.or_eq_false_iff] at h
    simp [ih h.2, Component.busWrite, h.1]

@[simp] theorem Bus.writable_write (bus : Bus) (a v a') : (bus.write a v).writable a' = bus.writable a' := by
  induction bus with
  | nil => rfl
  | cons c rest ih =>
    simp only [Bus.writable, Bus.write_cons, List.any_cons, Component.busWrite_acceptWrite] at ih ⊢
    rw [ih]

@[simp] theorem Bus.romByte_write (bus : Bus) (a v a') : (bus.write a v).romByte a' = bus.romByte a' := by
  have := Bus.roms_write bus a v
  simp only [Bus.roms] at this
  simp only [Bus.romByte, this]

/-- Where no component covers an address, none takes a write there. -/
theorem Bus.writable_of_uncovered {bus : Bus} {a : Word} (h : bus.covers a = false) : bus.writable a = false := by
  simp only [Bus.covers, Bus.writable, List.any_eq_false] at *
  intro c hc hw
  exact h c hc (Component.acceptRead_of_acceptWrite hw)

/-- A component that takes no write where it drives the Bus is a ROM. -/
theorem Component.rom_of_acceptRead {c : Component} {a : Word} (hr : c.acceptRead a = true)
    (hw : c.acceptWrite a = false) : c.kind = .rom := by
  cases h : c.kind with
  | ram => simp [Component.acceptWrite, h, hr] at hw
  | rom => rfl

/-- What a read gives at the address just written: the byte if some RAM takes it, ORed with the ROMs' bytes
(R53, R54). -/
theorem Bus.read_write_same {bus : Bus} (hw : bus.wf = true) (a : Word) (v : Byte) :
    (bus.write a v).read a = (if bus.writable a then v else 0) ||| bus.romByte a := by
  induction bus with
  | nil => simp [Bus.writable, Bus.romByte]
  | cons c rest ih =>
    simp only [Bus.wf, List.all_cons, Bool.and_eq_true] at hw
    have ih := ih hw.2
    simp only [Bus.write_cons, Bus.read_cons, ih]
    by_cases ha : c.acceptWrite a = true
    · have hk : c.kind = .ram := by
        cases h : c.kind with
        | ram => rfl
        | rom => simp [Component.acceptWrite, h] at ha
      have hd : (c.busWrite a v).drive a = v := by
        simp [Component.drive, Component.acceptRead_of_acceptWrite ha, Component.read_busWrite_same hw.1 v ha]
      have hrom : Bus.romByte (c :: rest) a = Bus.romByte rest a := by simp [Bus.romByte, hk]
      rw [hd, hrom]
      by_cases hrest : Bus.writable rest a = true
      · simp only [Bus.writable] at hrest
        simp [Bus.writable, ha, hrest, ← BitVec.or_assoc]
      · simp only [Bus.writable] at hrest
        simp [Bus.writable, ha, hrest]
    · have hw' : Bus.writable (c :: rest) a = Bus.writable rest a := by simp [Bus.writable, ha]
      rw [hw']
      by_cases hr : c.acceptRead a = true
      · have hk := Component.rom_of_acceptRead hr (by simpa using ha)
        have hrom : Bus.romByte (c :: rest) a = c.drive a ||| Bus.romByte rest a := by simp [Bus.romByte, hk]
        rw [hrom, Component.busWrite_of_rom hk, ← BitVec.or_assoc, BitVec.or_comm (c.drive a), BitVec.or_assoc]
      · have hd : c.drive a = 0 := by simp [Component.drive, hr]
        have hd' : (c.busWrite a v).drive a = 0 := by simp [Component.drive, hr]
        have hrom : Bus.romByte (c :: rest) a = Bus.romByte rest a := by
          cases h : c.kind <;> simp [Bus.romByte, h, hd]
        rw [hd', hrom]; simp

end Sys2Proof.Machine
end

