-- ==== Sys2Proof/Laws/Boot.lean ====
section
/-! SUPPORT. Construction's checks as arithmetic (20_memory.md R51). -/

namespace Sys2Proof.Machine

theorem boundsWf_iff (start stop : Nat) : boundsWf start stop = true ↔ start ≤ stop ∧ stop ≤ 65536 := by
  unfold boundsWf
  rw [Bool.and_eq_true]
  exact ⟨fun h => ⟨of_decide_eq_true h.1, of_decide_eq_true h.2⟩,
    fun h => ⟨decide_eq_true h.1, decide_eq_true h.2⟩⟩

/-- Two ranges are disjoint exactly when they share no address. -/
theorem rangesDisjoint_iff (s e s' e' : Nat) :
    rangesDisjoint s e s' e' = true ↔ ∀ a, ¬ (s ≤ a ∧ a < e ∧ s' ≤ a ∧ a < e') := by
  simp only [rangesDisjoint, decide_eq_true_eq]
  constructor
  · intro h a; omega
  · intro h
    by_contra hc
    exact h (max s s') (by omega)

/-- Below its first byte an image's store reads the unlisted value. -/
theorem Memory.get_ofBytes_below (bytes : List Byte) (k a : Nat) (h : a < k) :
    Memory.get (Memory.ofBytes k bytes) a = Memory.unlisted := by
  induction bytes generalizing k with
  | nil => rfl
  | cons x rest ih =>
    simp only [Memory.ofBytes]
    split
    · exact ih _ (by omega)
    · simp [Memory.get, show k ≠ a by omega, ih (k + 1) (by omega)]

/-- An image's store reads the image (R50). -/
theorem Memory.get_ofBytes (bytes : List Byte) (k j : Nat) (v : Byte) (h : bytes[j]? = some v) :
    Memory.get (Memory.ofBytes k bytes) (k + j) = v := by
  induction bytes generalizing k j with
  | nil => simp at h
  | cons x rest ih =>
    cases j with
    | zero =>
      simp at h; subst h
      simp only [Memory.ofBytes]
      split
      · rename_i hx; rw [hx]; exact Memory.get_ofBytes_below _ _ _ (by omega)
      · simp [Memory.get]
    | succ j =>
      simp at h
      have := ih (k + 1) j h
      rw [show k + 1 + j = k + (j + 1) by omega] at this
      simp only [Memory.ofBytes]
      split
      · exact this
      · simp [Memory.get, this]

/-- An image's store is in canonical form and of the image's size (log 6). -/
theorem Memory.wf_ofBytes (bytes : List Byte) (k : Nat) : Memory.wfFrom k (Memory.ofBytes k bytes) = true ∧
    (Memory.ofBytes k bytes).all (fun cell => decide (cell.1 < k + bytes.length)) = true := by
  induction bytes generalizing k with
  | nil => exact ⟨rfl, rfl⟩
  | cons x rest ih =>
    obtain ⟨h1, h2⟩ := ih (k + 1)
    rw [List.length_cons, show k + (rest.length + 1) = k + 1 + rest.length by omega]
    simp only [Memory.ofBytes]
    split
    · exact ⟨Memory.wfFrom_mono h1 (by omega), h2⟩
    · rename_i hx
      refine ⟨by simp [Memory.wfFrom, hx, h1], ?_⟩
      rw [List.all_cons, h2, Bool.and_true]; simp; omega

/-- The Bus that is built holds, in registration order, what building each component answers (R52, R138). -/
theorem buildComponents_ok {specs : List ComponentSpec} {bus : Bus} (h : buildComponents specs = .ok bus) :
    List.Forall₂ (fun spec c => buildComponent spec = .ok c) specs bus := by
  induction specs generalizing bus with
  | nil => cases h; exact .nil
  | cons spec rest ih =>
    unfold buildComponents at h
    cases hc : buildComponent spec with
    | error r => rw [hc] at h; cases h
    | ok c =>
      cases hr : buildComponents rest with
      | error r => rw [hc, hr] at h; cases h
      | ok bus' => rw [hc, hr] at h; cases h; exact .cons hc (ih hr)

/-- If boot answers a state, the Bus was built and the state holds it with what the launch seeds (R138). -/
theorem boot_next {launch : Launch} {s : State} (h : boot launch = .next s) :
    buildComponents launch.components = .ok s.bus ∧ s.regs = launch.regs ∧ s.iff1 = launch.iff1 ∧
      s.iff2 = launch.iff2 ∧ s.params = launch.params ∧ s.total = 0 := by
  unfold boot at h
  split at h
  · cases h
  · split at h
    · cases h
    · split at h
      · cases h
      · cases h; exact ⟨‹_›, rfl, rfl, rfl, rfl, rfl⟩

end Sys2Proof.Machine
end

