-- ==== Sys2Proof/Laws/Regs.lean ====
section
/-! SUPPORT. The register file's laws (10_state.md R18 to R21): a cell written reads back, no cell disturbs another,
the two halves of a cell are independent. -/

namespace Sys2Proof.Machine

/-! ### Halves of a Word -/

@[simp] theorem hiByte_wordOf (hi lo : Byte) : hiByte (wordOf hi lo) = hi := by
  unfold hiByte wordOf
  ext k hk
  simp [BitVec.getElem_setWidth, BitVec.getLsbD_ushiftRight, BitVec.getLsbD_or]
  have : ¬ (8 + k < 8) := by omega
  simp [hk, show k < 16 by omega, show 8 + k < 16 by omega]

@[simp] theorem loByte_wordOf (hi lo : Byte) : loByte (wordOf hi lo) = lo := by
  unfold loByte wordOf
  ext k hk
  simp

@[simp] theorem wordOf_halves (v : Word) : wordOf (hiByte v) (loByte v) = v := by
  unfold wordOf hiByte loByte
  ext k hk
  by_cases h : k < 8
  · simp [h, hk]
  · simp [h, hk, show 8 + (k - 8) = k by omega, show k - 8 < 8 by omega]

theorem loByte_eq_extract (v : Word) : loByte v = v.extractLsb' 0 8 := by
  unfold loByte; ext k hk; simp

theorem hiByte_eq_extract (v : Word) : hiByte v = v.extractLsb' 8 8 := by
  unfold hiByte; ext k hk; simp

/-- `hi:lo` is the concatenation of the two bytes (R9). -/
theorem wordOf_eq_append (hi lo : Byte) : wordOf hi lo = hi ++ lo := by
  unfold wordOf
  ext k hk
  rw [BitVec.getElem_append]
  by_cases h : k < 8
  · simp [h]
  · simp [h, show k - 8 < 8 by omega, BitVec.getLsbD_of_ge lo k (by omega)]

/-- `hi:lo` is `hi*256 + lo` (R9). -/
theorem toNat_wordOf (hi lo : Byte) : (wordOf hi lo).toNat = hi.toNat * 256 + lo.toNat := by
  rw [wordOf_eq_append, BitVec.toNat_append, ← Nat.shiftLeft_add_eq_or_of_lt lo.isLt, Nat.shiftLeft_eq]

/-! ### Cells -/

@[simp] theorem RegFile.cell_setCell_same (f : RegFile) (c v) : (f.setCell c v).cell c = v := by
  cases c <;> rfl

theorem RegFile.cell_setCell_ne (f : RegFile) {c c' : RegCell} (v) (h : c' ≠ c) :
    (f.setCell c v).cell c' = f.cell c' := by
  cases c <;> cases c' <;> first | rfl | exact absurd rfl h

theorem RegFile.cell_setCell (f : RegFile) (c c' : RegCell) (v) :
    (f.setCell c v).cell c' = if c' = c then v else f.cell c' := by
  by_cases h : c' = c
  · subst h; simp
  · simp [h, RegFile.cell_setCell_ne f v h]

/-- Two register files that agree on every cell are equal: the cells are all there is (R39). -/
theorem RegFile.ext_cell {f g : RegFile} (h : ∀ c, f.cell c = g.cell c) : f = g := by
  have := h .af; have := h .bc; have := h .de; have := h .hl; have := h .afAlt; have := h .bcAlt
  have := h .deAlt; have := h .hlAlt; have := h .ir; have := h .ix; have := h .iy; have := h .sp; have := h .pc
  cases f; cases g; simp_all [RegFile.cell]

/-! ### Selectors -/

theorem WordReg.cell_injective {w w' : WordReg} (h : w.cell = w'.cell) : w = w' := by
  cases w <;> cases w' <;> first | rfl | cases h

theorem WordReg.cell_ne_ir (w : WordReg) : w.cell ≠ .ir := by cases w <;> simp [WordReg.cell]

@[simp] theorem ByteReg.cell_ne_pc (x : ByteReg) : x.cell ≠ .pc := by cases x <;> simp [ByteReg.cell]

/-- A byte selector is fixed by its cell and its half (R17). -/
theorem ByteReg.eq_of_cell_of_half {x y : ByteReg} (hc : x.cell = y.cell) (hh : x.isHigh = y.isHigh) : x = y := by
  cases x <;> cases y <;> first | rfl | (revert hc hh; decide)

@[simp] theorem State.readWord_writeWord_same (s : State) (w v) : (s.writeWord w v).readWord w = v := by
  simp [State.readWord, State.writeWord]

theorem State.readWord_writeWord_ne (s : State) {w w' : WordReg} (v) (h : w' ≠ w) :
    (s.writeWord w v).readWord w' = s.readWord w' := by
  have : w'.cell ≠ w.cell := fun e => h (WordReg.cell_injective e)
  simp [State.readWord, State.writeWord, RegFile.cell_setCell_ne _ _ this]

@[simp] theorem State.readByte_writeByte_same (s : State) (x v) : (s.writeByte x v).readByte x = v := by
  cases h : x.isHigh <;> simp [State.readByte, State.writeByte, h]

theorem State.readByte_writeByte_ne (s : State) {x y : ByteReg} (v) (h : y ≠ x) :
    (s.writeByte x v).readByte y = s.readByte y := by
  by_cases hc : y.cell = x.cell
  · have hh : y.isHigh ≠ x.isHigh := fun e => h (ByteReg.eq_of_cell_of_half hc e)
    cases hx : x.isHigh <;> cases hy : y.isHigh <;>
      simp_all [State.readByte, State.writeByte]
  · simp [State.readByte, State.writeByte, RegFile.cell_setCell_ne _ _ hc]

/-- A byte write leaves a word selector of another cell alone. -/
theorem State.readWord_writeByte_ne (s : State) (x : ByteReg) {w : WordReg} (v) (h : w.cell ≠ x.cell) :
    (s.writeByte x v).readWord w = s.readWord w := by
  simp [State.readWord, State.writeByte, RegFile.cell_setCell_ne _ _ h]

@[simp] theorem State.readWord_pc_writeByte (s : State) (x : ByteReg) (v) :
    (s.writeByte x v).readWord .pc = s.readWord .pc :=
  s.readWord_writeByte_ne x v (fun e => x.cell_ne_pc e.symm)

/-- A word write leaves a byte selector of another cell alone. -/
theorem State.readByte_writeWord_ne (s : State) {x : ByteReg} {w : WordReg} (v) (h : x.cell ≠ w.cell) :
    (s.writeWord w v).readByte x = s.readByte x := by
  simp [State.readByte, State.writeWord, RegFile.cell_setCell_ne _ _ h]

@[simp] theorem State.readByte_writeWord_pc (s : State) (x : ByteReg) (v) :
    (s.writeWord .pc v).readByte x = s.readByte x :=
  s.readByte_writeWord_ne v x.cell_ne_pc

/-- A byte selector reads its half of the word its cell holds. -/
theorem State.readByte_high (s : State) {x : ByteReg} (h : x.isHigh = true) :
    s.readByte x = hiByte (s.regs.cell x.cell) := by simp [State.readByte, h]

theorem State.readByte_low (s : State) {x : ByteReg} (h : x.isHigh = false) :
    s.readByte x = loByte (s.regs.cell x.cell) := by simp [State.readByte, h]

theorem byteRegOf_injective {r r' : Reg8} (h : byteRegOf r = byteRegOf r') : r = r' := by
  cases r <;> cases r' <;> first | rfl | cases h

@[simp] theorem byteRegOf_ne_f (r : Reg8) : byteRegOf r ≠ .f := by cases r <;> simp [byteRegOf]

end Sys2Proof.Machine
end

