-- ==== Sys2Proof/Laws/Flags.lean ====
section
/-! SUPPORT. The flag register's laws (10_state.md R28 to R34). -/

namespace Sys2Proof.Machine

theorem Flag.bit_injective {f g : Flag} (h : f.bit = g.bit) : f = g := by
  cases f <;> cases g <;> first | rfl | cases h

/-- A flag's mask has that flag's bit and no other. -/
theorem Flag.getLsbD_mask (f : Flag) (k : Nat) : f.mask.getLsbD k = decide (k = f.bit) := by
  by_cases hk : k < 8
  · have : k = 0 ∨ k = 1 ∨ k = 2 ∨ k = 3 ∨ k = 4 ∨ k = 5 ∨ k = 6 ∨ k = 7 := by omega
    rcases this with h | h | h | h | h | h | h | h <;> subst h <;> cases f <;> decide
  · have : k ≠ f.bit := by cases f <;> simp [Flag.bit] <;> omega
    simp [this, BitVec.getLsbD_of_ge _ _ (Nat.le_of_not_lt hk)]

/-- One flag write changes exactly that bit of F (R10). -/
theorem State.readF_putFlag (s : State) (f : Flag) (v : Bool) (k : Nat) (hk : k < 8) :
    ((s.putFlag f v).readByte .f).getLsbD k = if k = f.bit then v else (s.readByte .f).getLsbD k := by
  by_cases h : k = f.bit
  · subst h
    cases v <;> simp [State.putFlag, State.enableFlag, State.disableFlag, Flag.getLsbD_mask, hk]
  · have hm : f.mask[k] = false := by rw [← BitVec.getLsbD_eq_getElem, Flag.getLsbD_mask]; simp [h]
    cases v <;> simp [State.putFlag, State.enableFlag, State.disableFlag, hm, h, hk]

@[simp] theorem State.getFlag_putFlag_same (s : State) (f : Flag) (v) : (s.putFlag f v).getFlag f = v := by
  have : f.bit < 8 := by cases f <;> simp [Flag.bit]
  simp [State.getFlag, State.readF_putFlag _ _ _ _ this]

theorem State.getFlag_putFlag_ne (s : State) {f g : Flag} (v) (h : g ≠ f) :
    (s.putFlag f v).getFlag g = s.getFlag g := by
  have hb : g.bit < 8 := by cases g <;> simp [Flag.bit]
  have : g.bit ≠ f.bit := fun e => h (Flag.bit_injective e)
  simp [State.getFlag, State.readF_putFlag _ _ _ _ hb, this]

@[simp] theorem State.putFlag_iff1 (s : State) (f v) : (s.putFlag f v).iff1 = s.iff1 := by cases v <;> rfl
@[simp] theorem State.putFlag_iff2 (s : State) (f v) : (s.putFlag f v).iff2 = s.iff2 := by cases v <;> rfl
@[simp] theorem State.putFlag_bus (s : State) (f v) : (s.putFlag f v).bus = s.bus := by cases v <;> rfl
@[simp] theorem State.putFlag_total (s : State) (f v) : (s.putFlag f v).total = s.total := by cases v <;> rfl
@[simp] theorem State.putFlag_params (s : State) (f v) : (s.putFlag f v).params = s.params := by cases v <;> rfl

/-- A flag write leaves every byte selector but F alone. -/
theorem State.readByte_putFlag_ne (s : State) (f v) {x : ByteReg} (h : x ≠ .f) :
    (s.putFlag f v).readByte x = s.readByte x := by
  cases v <;> simp [State.putFlag, State.enableFlag, State.disableFlag, State.readByte_writeByte_ne _ _ h]

/-- A flag write leaves every cell but AF alone. -/
theorem State.cell_putFlag_ne (s : State) (f v) {c : RegCell} (h : c ≠ .af) :
    (s.putFlag f v).regs.cell c = s.regs.cell c := by
  cases v <;> simp [State.putFlag, State.enableFlag, State.disableFlag, State.writeByte, ByteReg.cell,
    RegFile.cell_setCell_ne _ _ h]

theorem State.readWord_putFlag_ne (s : State) (f v) {w : WordReg} (h : w ≠ .af) :
    (s.putFlag f v).readWord w = s.readWord w :=
  s.cell_putFlag_ne f v (fun e => h (WordReg.cell_injective (w' := .af) e))

end Sys2Proof.Machine
end

