-- ==== Sys2Proof/Laws/Ops.lean ====
section
/-! SUPPORT. What each shared operation can do (60_exceptions.md R119, 20_memory.md R53 to R55), and the effects of
safety terms established from the states the meanings build. -/

namespace Sys2Proof.Machine

@[simp] theorem State.canAccess_writeWord (s : State) (w v a) : (s.writeWord w v).canAccess a = s.canAccess a := rfl
@[simp] theorem State.canAccess_writeByte (s : State) (x v a) : (s.writeByte x v).canAccess a = s.canAccess a := rfl
@[simp] theorem State.canAccess_addCycles (s : State) (n a) : (s.addCycles n).canAccess a = s.canAccess a := rfl

/-- A Bus read of a step: the byte where the access is allowed, the fault where it is not. -/
theorem busRead_eq (s : State) (a k) :
    busRead s a k = if s.canAccess a = true then k (s.bus.read a) else .fault (.unmappedAccess a) := by
  unfold busRead; rw [State.accessFaults_eq]; cases s.canAccess a <;> rfl

theorem busReadWord_eq (s : State) (a k) :
    busReadWord s a k = if s.canAccess a = true then
      (if s.canAccess (a + 1) = true then k (s.bus.readWord a) else .fault (.unmappedAccess (a + 1)))
      else .fault (.unmappedAccess a) := by
  simp [busReadWord, busRead_eq, Bus.readWord]

theorem busWrite_eq (s : State) (a v k) :
    busWrite s a v k = if s.canAccess a = true then k (s.withBus (s.bus.write a v))
      else .fault (.unmappedAccess a) := by
  unfold busWrite; rw [State.accessFaults_eq]; cases s.canAccess a <;> rfl

/-- If a Bus read of a step leads to a next state, the access was allowed and the rest of the step ran on the byte. -/
theorem busRead_next {s : State} {a k t} (h : busRead s a k = .next t) :
    s.canAccess a = true ∧ k (s.bus.read a) = .next t := by
  rw [busRead_eq] at h; split at h
  · exact ⟨‹_›, h⟩
  · cases h

theorem busWrite_next {s : State} {a v k t} (h : busWrite s a v k = .next t) :
    s.canAccess a = true ∧ k (s.withBus (s.bus.write a v)) = .next t := by
  rw [busWrite_eq] at h; split at h
  · exact ⟨‹_›, h⟩
  · cases h

/-- A write of F changes F only: what the flag operations of R30, R31 and R33 are made of. -/
theorem onlyFWritten_writeF (s : State) (v : Byte) : OnlyFWritten s (s.writeByte .f v) where
  bytes := fun sel h => by simp [State.readByte_writeByte_ne _ _ h]
  cells := fun _ h => RegFile.cell_setCell_ne _ _ h
  iff1 := rfl
  iff2 := rfl
  bus := rfl
  total := rfl
  params := rfl

/-! ### The states the meanings build -/

/-- The state after a load of `v` into `dest` by an instruction of length `len`. -/
def afterLoad (s : State) (len : Word) (dest : ByteReg) (v : Byte) : State :=
  (s.writeWord .pc (s.readWord .pc + len)).writeByte dest v

/-- The state after a store of `v` at `a` by an instruction of length `len`. -/
def afterStore (s : State) (len : Word) (a : Word) (v : Byte) : State :=
  (s.withBus (s.bus.write a v)).writeWord .pc (s.readWord .pc + len)

/-- The state after LD A,I or LD A,R loaded `v`. -/
def afterVector (s : State) (v : Byte) : State :=
  ((s.writeWord .pc (s.readWord .pc + 2)).writeByte .a v).putInterruptVectorFlags v

/-- A load's state is what `LoadEffect` says. -/
theorem loadEffect_afterLoad (s : State) (len : Word) (dest : ByteReg) (v : Byte) :
    LoadEffect s (afterLoad s len dest v) len dest v where
  value := by simp [afterLoad]
  otherBytes := fun sel h => by simp [afterLoad, State.readByte_writeByte_ne _ _ h]
  otherWords := fun w hw hp => by
    simp [afterLoad, State.readWord_writeByte_ne _ _ _ hw, State.readWord_writeWord_ne _ _ hp]
  pc := by simp [afterLoad]
  iff1 := rfl
  iff2 := rfl
  bus := rfl
  params := rfl
  total := rfl

/-- A store's state is what `StoreEffect` says. -/
theorem storeEffect_afterStore {s : State} (hw : s.bus.wf = true) (len a : Word) (v : Byte) :
    StoreEffect s (afterStore s len a v) len a v where
  bytes := fun sel => by simp [afterStore]
  words := fun w hp => by simp [afterStore, State.readWord_writeWord_ne _ _ hp]
  pc := by simp [afterStore]
  others := fun a' h => by simp [afterStore, Bus.read_write_ne _ _ h]
  stored := fun h => by simp [afterStore, Bus.read_write_same hw, h]
  dropped := fun h => by simp [afterStore, Bus.write_unwritable h]
  layout := by simp [afterStore]
  roms := by simp [afterStore]
  iff1 := rfl
  iff2 := rfl
  params := rfl
  total := rfl

/-- The flag part of R116: each bit of F after the five flag writes. -/
theorem State.readF_putInterruptVectorFlags (s : State) (v : Byte) (k : Nat) (hk : k < 8) :
    ((s.putInterruptVectorFlags v).readByte .f).getLsbD k =
      if k = 7 then v.getLsbD 7 else if k = 6 then v == 0 else if k = 4 then false
      else if k = 2 then s.iff2 else if k = 1 then false else (s.readByte .f).getLsbD k := by
  simp only [State.putInterruptVectorFlags, State.readF_putFlag _ _ _ _ hk, Flag.bit]
  have : k = 0 ∨ k = 1 ∨ k = 2 ∨ k = 3 ∨ k = 4 ∨ k = 5 ∨ k = 6 ∨ k = 7 := by omega
  rcases this with h | h | h | h | h | h | h | h <;> subst h <;> simp

theorem State.readByte_putInterruptVectorFlags_ne (s : State) (v) {x : ByteReg} (h : x ≠ .f) :
    (s.putInterruptVectorFlags v).readByte x = s.readByte x := by
  simp [State.putInterruptVectorFlags, State.readByte_putFlag_ne _ _ _ h]

theorem State.readWord_putInterruptVectorFlags_ne (s : State) (v) {w : WordReg} (h : w ≠ .af) :
    (s.putInterruptVectorFlags v).readWord w = s.readWord w := by
  simp [State.putInterruptVectorFlags, State.readWord_putFlag_ne _ _ _ h]

@[simp] theorem State.putInterruptVectorFlags_iff1 (s : State) (v) :
    (s.putInterruptVectorFlags v).iff1 = s.iff1 := by simp [State.putInterruptVectorFlags]
@[simp] theorem State.putInterruptVectorFlags_iff2 (s : State) (v) :
    (s.putInterruptVectorFlags v).iff2 = s.iff2 := by simp [State.putInterruptVectorFlags]
@[simp] theorem State.putInterruptVectorFlags_bus (s : State) (v) :
    (s.putInterruptVectorFlags v).bus = s.bus := by simp [State.putInterruptVectorFlags]
@[simp] theorem State.putInterruptVectorFlags_total (s : State) (v) :
    (s.putInterruptVectorFlags v).total = s.total := by simp [State.putInterruptVectorFlags]
@[simp] theorem State.putInterruptVectorFlags_params (s : State) (v) :
    (s.putInterruptVectorFlags v).params = s.params := by simp [State.putInterruptVectorFlags]

/-- The state after LD A,I or LD A,R is what `InterruptVectorEffect` says. -/
theorem interruptVectorEffect_afterVector (s : State) (v : Byte) :
    InterruptVectorEffect s (afterVector s v) v := by
  have hf : ∀ k, k < 8 → ((afterVector s v).readByte .f).getLsbD k =
      if k = 7 then v.getLsbD 7 else if k = 6 then v == 0 else if k = 4 then false
      else if k = 2 then s.iff2 else if k = 1 then false else (s.readByte .f).getLsbD k := fun k hk => by
    have hne : (ByteReg.f) ≠ .a := by decide
    rw [afterVector, State.readF_putInterruptVectorFlags _ _ _ hk]
    simp [State.readByte_writeByte_ne _ _ hne]
  have hflag : ∀ f : Flag, (afterVector s v).getFlag f = ((afterVector s v).readByte .f).getLsbD f.bit :=
    fun _ => rfl
  refine { value := ?_, sign := ?_, zero := ?_, halfCarry := ?_, parity := ?_, subtract := ?_, carry := ?_,
           bit5 := ?_, bit3 := ?_, otherBytes := ?_, otherWords := ?_, pc := ?_, iff1 := ?_, iff2 := ?_,
           bus := ?_, params := ?_, total := ?_ }
  · simp [afterVector, State.readByte_putInterruptVectorFlags_ne]
  · rw [hflag, hf _ (by decide)]; simp [Flag.bit]
  · rw [hflag, hf _ (by decide)]; simp [Flag.bit]
  · rw [hflag, hf _ (by decide)]; simp [Flag.bit]
  · rw [hflag, hf _ (by decide)]; simp [Flag.bit]
  · rw [hflag, hf _ (by decide)]; simp [Flag.bit]
  · rw [hflag, hf _ (by decide)]; simp [Flag.bit, State.getFlag]
  · rw [hf _ (by decide)]; simp
  · rw [hf _ (by decide)]; simp
  · intro sel ha hff
    simp [afterVector, State.readByte_putInterruptVectorFlags_ne _ _ hff, State.readByte_writeByte_ne _ _ ha]
  · intro w haf hp
    have hc : w.cell ≠ (ByteReg.a).cell := fun e => haf (WordReg.cell_injective (w' := .af) e)
    simp [afterVector, State.readWord_putInterruptVectorFlags_ne _ _ haf, State.readWord_writeByte_ne _ _ _ hc,
      State.readWord_writeWord_ne _ _ hp]
  · have : (WordReg.pc) ≠ .af := by decide
    simp [afterVector, State.readWord_putInterruptVectorFlags_ne _ _ this]
  all_goals simp [afterVector]

end Sys2Proof.Machine
end

