-- ==== Sys2Proof/Laws/Exec.lean ====
section
/-! SUPPORT. What `exec`, the fetch and `step` can do, said once: an instruction whose accesses are all allowed
answers one next state, and one whose first disallowed access is at `a` faults at `a`. -/

namespace Sys2Proof.Machine

/-! ### Opcodes and forms -/

@[simp] theorem Instr.form_instr (i : Instr) : i.form.instr = i := by cases i <;> rfl

@[simp] theorem Form.instr_form (f : Form) : f.instr.form = f := by
  cases f with
  | ldRR r r' => cases r <;> cases r' <;> rfl
  | ldRN r => cases r <;> rfl
  | ldRHL r => cases r <;> rfl
  | ldRIX r => cases r <;> rfl
  | ldRIY r => cases r <;> rfl
  | ldHLR r => cases r <;> rfl
  | ldABC => rfl
  | ldADE => rfl
  | ldBCA => rfl
  | ldDEA => rfl
  | ldHLN => rfl
  | ldIXN => rfl
  | ldIYN => rfl
  | ldANN => rfl
  | ldNNA => rfl
  | ldAI => rfl
  | ldAR => rfl

theorem Instr.form_injective {i j : Instr} (h : i.form = j.form) : i = j := by
  rw [← Instr.form_instr i, h, Instr.form_instr]

/-! ### The meaning of a form -/

/-- The shared operation each form's meanings call. -/
def formMeaning (s : State) : Form → Result
  | .ldRR r r' => loadRegister r r' s
  | .ldRN r => loadImmediate r s
  | .ldRHL r => loadIndirect r .hl s
  | .ldABC => loadIndirect .a .bc s
  | .ldADE => loadIndirect .a .de s
  | .ldRIX r => loadIndexed r .ix s
  | .ldRIY r => loadIndexed r .iy s
  | .ldHLR r => storeIndirect .hl r s
  | .ldBCA => storeIndirect .bc .a s
  | .ldDEA => storeIndirect .de .a s
  | .ldHLN => storeImmediate .hl s
  | .ldIXN => storeIndexed .ix s
  | .ldIYN => storeIndexed .iy s
  | .ldANN => loadDirect .a s
  | .ldNNA => storeDirect .a s
  | .ldAI => loadInterruptVector .i s
  | .ldAR => loadInterruptVector .r s

/-- Each of the 95 arms of `exec` is its form's shared operation. -/
theorem exec_eq_formMeaning (i : Instr) (s : State) : exec i s = formMeaning s i.form := by cases i <;> rfl

/-- The state a form leaves when its accesses are allowed. -/
def afterForm (s : State) : Form → State
  | .ldRR r r' => afterLoad s 1 (byteRegOf r) (s.readByte (byteRegOf r'))
  | .ldRN r => afterLoad s 2 (byteRegOf r) (s.instrByte 1)
  | .ldRHL r => afterLoad s 1 (byteRegOf r) (s.bus.read (s.readWord .hl))
  | .ldABC => afterLoad s 1 .a (s.bus.read (s.readWord .bc))
  | .ldADE => afterLoad s 1 .a (s.bus.read (s.readWord .de))
  | .ldRIX r => afterLoad s 3 (byteRegOf r) (s.bus.read (s.indexedOperand .ix))
  | .ldRIY r => afterLoad s 3 (byteRegOf r) (s.bus.read (s.indexedOperand .iy))
  | .ldHLR r => afterStore s 1 (s.readWord .hl) (s.readByte (byteRegOf r))
  | .ldBCA => afterStore s 1 (s.readWord .bc) (s.readByte .a)
  | .ldDEA => afterStore s 1 (s.readWord .de) (s.readByte .a)
  | .ldHLN => afterStore s 2 (s.readWord .hl) (s.instrByte 1)
  | .ldIXN => afterStore s 4 (s.indexedOperand .ix) (s.instrByte 3)
  | .ldIYN => afterStore s 4 (s.indexedOperand .iy) (s.instrByte 3)
  | .ldANN => afterLoad s 3 .a (s.bus.read s.directAddress)
  | .ldNNA => afterStore s 3 s.directAddress (s.readByte .a)
  | .ldAI => afterVector s (s.readByte .i)
  | .ldAR => afterVector s (s.readByte .r)

/-- What an ordered list of accesses answers: the fault of the first one that is not allowed, else the next state. -/
def guarded (s : State) (t : State) : List Word → Result
  | [] => .next t
  | a :: rest => if s.canAccess a = true then guarded s t rest else .fault (.unmappedAccess a)

/-- Everything `exec` can do, for all 95 opcodes at once. -/
theorem exec_eq_guarded (i : Instr) (s : State) :
    exec i s = guarded s (afterForm s i.form) (accesses i s) := by
  rw [exec_eq_formMeaning]
  have hbc : (WordReg.bc) ≠ .pc := by decide
  have hde : (WordReg.de) ≠ .pc := by decide
  have hhl : (WordReg.hl) ≠ .pc := by decide
  have hix : (WordReg.ix) ≠ .pc := by decide
  have hiy : (WordReg.iy) ≠ .pc := by decide
  have h12 : s.readWord .pc + 1#16 + 1#16 = s.readWord .pc + 2#16 := by rw [BitVec.add_assoc]; rfl
  unfold accesses Instr.format
  cases i.form <;>
    simp [formMeaning, afterForm, guarded, Form.format, operandOffsets, dataAddress, loadRegister,
      loadImmediate, loadIndirect, loadIndexed, storeIndirect, storeImmediate, storeIndexed, loadDirect, storeDirect,
      loadInterruptVector, withImmediate, withIndexed, withIndexedImmediate, withDirectAddress, busRead_eq,
      busReadWord_eq, busWrite_eq, afterLoad, afterStore, afterVector, State.instrByte,
      State.indexedOperand, State.directAddress, wordRegOfIndex, byteRegOf, Bus.readWord, h12,
      State.readWord_writeWord_ne _ _ hbc, State.readWord_writeWord_ne _ _ hde, State.readWord_writeWord_ne _ _ hhl,
      State.readWord_writeWord_ne _ _ hix, State.readWord_writeWord_ne _ _ hiy] <;>
    rfl

theorem guarded_of_all {s t : State} {l : List Word} (h : ∀ a ∈ l, s.canAccess a = true) :
    guarded s t l = .next t := by
  induction l with
  | nil => rfl
  | cons a rest ih =>
    simp only [guarded, h a (List.mem_cons_self ..), if_true]
    exact ih (fun b hb => h b (List.mem_cons_of_mem _ hb))

theorem guarded_next {s t u : State} {l : List Word} (h : guarded s t l = .next u) :
    u = t ∧ ∀ a ∈ l, s.canAccess a = true := by
  induction l with
  | nil => cases h; simp
  | cons a rest ih =>
    simp only [guarded] at h
    split at h
    · obtain ⟨hu, ha⟩ := ih h
      exact ⟨hu, by simpa using ⟨‹_›, ha⟩⟩
    · cases h

theorem guarded_fault_of_find {s t : State} {l : List Word} {a : Word}
    (h : l.find? (fun a => !s.canAccess a) = some a) : guarded s t l = .fault (.unmappedAccess a) := by
  induction l with
  | nil => cases h
  | cons b rest ih =>
    by_cases hb : s.canAccess b = true
    · simp only [List.find?_cons, hb, Bool.not_true] at h
      simp [guarded, hb, ih h]
    · simp only [List.find?_cons, hb, Bool.not_false] at h
      cases h
      simp [guarded, hb]

theorem guarded_ne_refused (s t : State) (l : List Word) (r : Refusal) : guarded s t l ≠ .refused r := by
  induction l with
  | nil => intro h; cases h
  | cons a rest ih =>
    simp only [guarded]; split
    · exact ih
    · intro h; cases h

/-- An instruction whose accesses are all allowed completes (R118). -/
theorem exec_of_accesses {i : Instr} {s : State} (h : ∀ a ∈ accesses i s, s.canAccess a = true) :
    exec i s = .next (afterForm s i.form) := by rw [exec_eq_guarded, guarded_of_all h]

/-- If an instruction answers a next state, it is its form's, and its accesses were allowed. -/
theorem exec_next {i : Instr} {s t : State} (h : exec i s = .next t) :
    t = afterForm s i.form ∧ ∀ a ∈ accesses i s, s.canAccess a = true := by
  rw [exec_eq_guarded] at h; exact guarded_next h

/-! ### What every next state keeps -/

/-- A next state is a load's, a store's or an interrupt-vector load's, of the instruction's own length. -/
theorem afterForm_cases (s : State) (f : Form) :
    (∃ r v, storedBy s f = none ∧ afterForm s f = afterLoad s (BitVec.ofNat 16 f.format.length) (byteRegOf r) v) ∨
    (∃ a v, storedBy s f = some (a, v) ∧
      afterForm s f = afterStore s (BitVec.ofNat 16 f.format.length) a v) ∨
    (∃ v, storedBy s f = none ∧ (f = .ldAI ∨ f = .ldAR) ∧ f.format = .fmtD ∧ afterForm s f = afterVector s v) := by
  cases f with
  | ldRR r r' => exact .inl ⟨r, _, rfl, rfl⟩
  | ldRN r => exact .inl ⟨r, _, rfl, rfl⟩
  | ldRHL r => exact .inl ⟨r, _, rfl, rfl⟩
  | ldABC => exact .inl ⟨.a, _, rfl, rfl⟩
  | ldADE => exact .inl ⟨.a, _, rfl, rfl⟩
  | ldRIX r => exact .inl ⟨r, _, rfl, rfl⟩
  | ldRIY r => exact .inl ⟨r, _, rfl, rfl⟩
  | ldANN => exact .inl ⟨.a, _, rfl, rfl⟩
  | ldHLR r => exact .inr (.inl ⟨_, _, rfl, rfl⟩)
  | ldBCA => exact .inr (.inl ⟨_, _, rfl, rfl⟩)
  | ldDEA => exact .inr (.inl ⟨_, _, rfl, rfl⟩)
  | ldHLN => exact .inr (.inl ⟨_, _, rfl, rfl⟩)
  | ldIXN => exact .inr (.inl ⟨_, _, rfl, rfl⟩)
  | ldIYN => exact .inr (.inl ⟨_, _, rfl, rfl⟩)
  | ldNNA => exact .inr (.inl ⟨_, _, rfl, rfl⟩)
  | ldAI => exact .inr (.inr ⟨_, rfl, .inl rfl, rfl, rfl⟩)
  | ldAR => exact .inr (.inr ⟨_, rfl, .inr rfl, rfl, rfl⟩)

/-! ### The fetch and the step -/

/-- If the fetch leads to a next state, some opcode's bytes were fetched, their entry found and run. -/
theorem fetchOpcode_next {s : State} {k t} (h : fetchOpcode s k = .next t) :
    s.canFetch ∧ ∃ e, dispatchEntry s.params s.opcodeBytes = some e ∧ k e = .next t := by
  have hres : ∀ bytes, resolve s bytes k = .next t → ∃ e, dispatchEntry s.params bytes = some e ∧ k e = .next t :=
    fun bytes hr => by
      unfold resolve at hr; split at hr
      · exact ⟨_, ‹_›, hr⟩
      · cases hr
  have h0 : s.bus.read (s.readWord .pc) = s.instrByte 0 := by simp [State.instrByte]
  unfold fetchOpcode at h
  obtain ⟨hpc, h⟩ := busRead_next h
  rw [h0] at h
  unfold State.canFetch State.opcodeBytes
  split at h
  · rename_i hp
    obtain ⟨h1, h⟩ := busRead_next h
    exact ⟨⟨hpc, fun _ => h1⟩, by rw [if_pos hp]; exact hres _ h⟩
  · rename_i hp
    exact ⟨⟨hpc, fun hp' => absurd hp' hp⟩, by rw [if_neg hp]; exact hres _ h⟩

/-- With every opcode byte accessible, the fetch resolves them and changes nothing (R79). -/
theorem fetchOpcode_of_canFetch {s : State} (h : s.canFetch) (k) : fetchOpcode s k = resolve s s.opcodeBytes k := by
  have h0 : s.bus.read (s.readWord .pc) = s.instrByte 0 := by simp [State.instrByte]
  simp only [fetchOpcode, busRead_eq, h.1, if_true, h0, State.opcodeBytes]
  split
  · rw [if_pos (h.2 ‹_›)]; rfl
  · rfl

/-- What accumulating an invoked entry's cost answers, by the outcome of its instruction. -/
theorem accumulate_invoke (e : DispatchEntry) (s : State) :
    accumulate (invoke e s) = match exec e.instr s with
      | .next t => .next (t.addCycles e.cycles)
      | .fault f => .fault f
      | .refused q => .refused q := by
  unfold invoke; cases exec e.instr s <;> rfl

/-- If a step answers a next state, its opcode's entry was found, its instruction answered one, and the entry's cost
was added to T. -/
theorem step_next {s t : State} (h : step s = .next t) :
    ∃ i u, dispatchLookup s.params.dispatch s.opcodeBytes = some i ∧ exec i s = .next u ∧
      t = u.addCycles (cycleCost s.params s.opcodeBytes i) := by
  obtain ⟨-, e, he, hk⟩ := fetchOpcode_next h
  obtain ⟨i, hi, rfl⟩ := Option.map_eq_some_iff.1 he
  rw [accumulate_invoke] at hk
  cases hx : exec i s with
  | next u => rw [hx] at hk; cases hk; exact ⟨i, u, hi, hx, rfl⟩
  | fault f => rw [hx] at hk; cases hk
  | refused q => rw [hx] at hk; cases hk

/-- Where the opcode's bytes are accessible and DISPATCH has them, a step is their instruction (R100). -/
theorem stepRuns_of_lookup {s : State} (h : s.canFetch) {i : Instr}
    (hi : dispatchLookup s.params.dispatch s.opcodeBytes = some i) : StepRuns s s.opcodeBytes i := by
  have hs : step s = accumulate (invoke ⟨i, cycleCost s.params s.opcodeBytes i⟩ s) := by
    rw [step, fetchOpcode_of_canFetch h, resolve, dispatchEntry, hi]; rfl
  rw [accumulate_invoke] at hs
  exact ⟨fun t ht => by rw [hs, ht]; rfl, fun f hf => by rw [hs, hf], fun q hq => by rw [hs, hq]⟩

end Sys2Proof.Machine
end

