-- ==== Sys2Proof/Laws/PerInstr.lean ====
section
/-! SUPPORT. One lemma per opcode on the opcode table: its bytes decode to it, they are
an opcode the decode procedure presents, and they are as long as its layout says (30_encoding.md R73, R79, R80). -/

namespace Sys2Proof.Laws.OpcodeTable

/-- An opcode's selecting bytes decode to it, are a key of the decode procedure, and have its layout's length. -/
def Statement (i : Instr) : Prop :=
  decodeOpcode i.opcode = some i ∧ opcodeKeyWf i.opcode = true ∧ i.opcode.length = i.format.opcodeLength

theorem ld_B_B : Statement Instr.ld_B_B := by unfold Statement; decide
theorem ld_B_C : Statement Instr.ld_B_C := by unfold Statement; decide
theorem ld_B_D : Statement Instr.ld_B_D := by unfold Statement; decide
theorem ld_B_E : Statement Instr.ld_B_E := by unfold Statement; decide
theorem ld_B_H : Statement Instr.ld_B_H := by unfold Statement; decide
theorem ld_B_L : Statement Instr.ld_B_L := by unfold Statement; decide
theorem ld_B_A : Statement Instr.ld_B_A := by unfold Statement; decide
theorem ld_C_B : Statement Instr.ld_C_B := by unfold Statement; decide
theorem ld_C_C : Statement Instr.ld_C_C := by unfold Statement; decide
theorem ld_C_D : Statement Instr.ld_C_D := by unfold Statement; decide
theorem ld_C_E : Statement Instr.ld_C_E := by unfold Statement; decide
theorem ld_C_H : Statement Instr.ld_C_H := by unfold Statement; decide
theorem ld_C_L : Statement Instr.ld_C_L := by unfold Statement; decide
theorem ld_C_A : Statement Instr.ld_C_A := by unfold Statement; decide
theorem ld_D_B : Statement Instr.ld_D_B := by unfold Statement; decide
theorem ld_D_C : Statement Instr.ld_D_C := by unfold Statement; decide
theorem ld_D_D : Statement Instr.ld_D_D := by unfold Statement; decide
theorem ld_D_E : Statement Instr.ld_D_E := by unfold Statement; decide
theorem ld_D_H : Statement Instr.ld_D_H := by unfold Statement; decide
theorem ld_D_L : Statement Instr.ld_D_L := by unfold Statement; decide
theorem ld_D_A : Statement Instr.ld_D_A := by unfold Statement; decide
theorem ld_E_B : Statement Instr.ld_E_B := by unfold Statement; decide
theorem ld_E_C : Statement Instr.ld_E_C := by unfold Statement; decide
theorem ld_E_D : Statement Instr.ld_E_D := by unfold Statement; decide
theorem ld_E_E : Statement Instr.ld_E_E := by unfold Statement; decide
theorem ld_E_H : Statement Instr.ld_E_H := by unfold Statement; decide
theorem ld_E_L : Statement Instr.ld_E_L := by unfold Statement; decide
theorem ld_E_A : Statement Instr.ld_E_A := by unfold Statement; decide
theorem ld_H_B : Statement Instr.ld_H_B := by unfold Statement; decide
theorem ld_H_C : Statement Instr.ld_H_C := by unfold Statement; decide
theorem ld_H_D : Statement Instr.ld_H_D := by unfold Statement; decide
theorem ld_H_E : Statement Instr.ld_H_E := by unfold Statement; decide
theorem ld_H_H : Statement Instr.ld_H_H := by unfold Statement; decide
theorem ld_H_L : Statement Instr.ld_H_L := by unfold Statement; decide
theorem ld_H_A : Statement Instr.ld_H_A := by unfold Statement; decide
theorem ld_L_B : Statement Instr.ld_L_B := by unfold Statement; decide
theorem ld_L_C : Statement Instr.ld_L_C := by unfold Statement; decide
theorem ld_L_D : Statement Instr.ld_L_D := by unfold Statement; decide
theorem ld_L_E : Statement Instr.ld_L_E := by unfold Statement; decide
theorem ld_L_H : Statement Instr.ld_L_H := by unfold Statement; decide
theorem ld_L_L : Statement Instr.ld_L_L := by unfold Statement; decide
theorem ld_L_A : Statement Instr.ld_L_A := by unfold Statement; decide
theorem ld_A_B : Statement Instr.ld_A_B := by unfold Statement; decide
theorem ld_A_C : Statement Instr.ld_A_C := by unfold Statement; decide
theorem ld_A_D : Statement Instr.ld_A_D := by unfold Statement; decide
theorem ld_A_E : Statement Instr.ld_A_E := by unfold Statement; decide
theorem ld_A_H : Statement Instr.ld_A_H := by unfold Statement; decide
theorem ld_A_L : Statement Instr.ld_A_L := by unfold Statement; decide
theorem ld_A_A : Statement Instr.ld_A_A := by unfold Statement; decide
theorem ld_B_n : Statement Instr.ld_B_n := by unfold Statement; decide
theorem ld_C_n : Statement Instr.ld_C_n := by unfold Statement; decide
theorem ld_D_n : Statement Instr.ld_D_n := by unfold Statement; decide
theorem ld_E_n : Statement Instr.ld_E_n := by unfold Statement; decide
theorem ld_H_n : Statement Instr.ld_H_n := by unfold Statement; decide
theorem ld_L_n : Statement Instr.ld_L_n := by unfold Statement; decide
theorem ld_A_n : Statement Instr.ld_A_n := by unfold Statement; decide
theorem ld_B_atHL : Statement Instr.ld_B_atHL := by unfold Statement; decide
theorem ld_C_atHL : Statement Instr.ld_C_atHL := by unfold Statement; decide
theorem ld_D_atHL : Statement Instr.ld_D_atHL := by unfold Statement; decide
theorem ld_E_atHL : Statement Instr.ld_E_atHL := by unfold Statement; decide
theorem ld_H_atHL : Statement Instr.ld_H_atHL := by unfold Statement; decide
theorem ld_L_atHL : Statement Instr.ld_L_atHL := by unfold Statement; decide
theorem ld_A_atHL : Statement Instr.ld_A_atHL := by unfold Statement; decide
theorem ld_A_atBC : Statement Instr.ld_A_atBC := by unfold Statement; decide
theorem ld_A_atDE : Statement Instr.ld_A_atDE := by unfold Statement; decide
theorem ld_B_atIX : Statement Instr.ld_B_atIX := by unfold Statement; decide
theorem ld_C_atIX : Statement Instr.ld_C_atIX := by unfold Statement; decide
theorem ld_D_atIX : Statement Instr.ld_D_atIX := by unfold Statement; decide
theorem ld_E_atIX : Statement Instr.ld_E_atIX := by unfold Statement; decide
theorem ld_H_atIX : Statement Instr.ld_H_atIX := by unfold Statement; decide
theorem ld_L_atIX : Statement Instr.ld_L_atIX := by unfold Statement; decide
theorem ld_A_atIX : Statement Instr.ld_A_atIX := by unfold Statement; decide
theorem ld_B_atIY : Statement Instr.ld_B_atIY := by unfold Statement; decide
theorem ld_C_atIY : Statement Instr.ld_C_atIY := by unfold Statement; decide
theorem ld_D_atIY : Statement Instr.ld_D_atIY := by unfold Statement; decide
theorem ld_E_atIY : Statement Instr.ld_E_atIY := by unfold Statement; decide
theorem ld_H_atIY : Statement Instr.ld_H_atIY := by unfold Statement; decide
theorem ld_L_atIY : Statement Instr.ld_L_atIY := by unfold Statement; decide
theorem ld_A_atIY : Statement Instr.ld_A_atIY := by unfold Statement; decide
theorem ld_atHL_B : Statement Instr.ld_atHL_B := by unfold Statement; decide
theorem ld_atHL_C : Statement Instr.ld_atHL_C := by unfold Statement; decide
theorem ld_atHL_D : Statement Instr.ld_atHL_D := by unfold Statement; decide
theorem ld_atHL_E : Statement Instr.ld_atHL_E := by unfold Statement; decide
theorem ld_atHL_H : Statement Instr.ld_atHL_H := by unfold Statement; decide
theorem ld_atHL_L : Statement Instr.ld_atHL_L := by unfold Statement; decide
theorem ld_atHL_A : Statement Instr.ld_atHL_A := by unfold Statement; decide
theorem ld_atBC_A : Statement Instr.ld_atBC_A := by unfold Statement; decide
theorem ld_atDE_A : Statement Instr.ld_atDE_A := by unfold Statement; decide
theorem ld_atHL_n : Statement Instr.ld_atHL_n := by unfold Statement; decide
theorem ld_atIX_n : Statement Instr.ld_atIX_n := by unfold Statement; decide
theorem ld_atIY_n : Statement Instr.ld_atIY_n := by unfold Statement; decide
theorem ld_A_atnn : Statement Instr.ld_A_atnn := by unfold Statement; decide
theorem ld_atnn_A : Statement Instr.ld_atnn_A := by unfold Statement; decide
theorem ld_A_I : Statement Instr.ld_A_I := by unfold Statement; decide
theorem ld_A_R : Statement Instr.ld_A_R := by unfold Statement; decide

end Sys2Proof.Laws.OpcodeTable
end

