-- ==== Sys2Proof/Laws/Place.lean ====
section
/-! SUPPORT. Placing bytes where the fetch finds them (log 14): a placed byte is covered and read back, and no other
address is disturbed. -/

namespace Sys2Proof.Machine

@[simp] theorem loaderPut_acceptRead (c : Component) (a v a') : (loaderPut c a v).acceptRead a' = c.acceptRead a' := by
  unfold loaderPut; split <;> rfl

theorem loaderPut_drive_ne (c : Component) {a a' : Word} (v) (h : a' ≠ a) :
    (loaderPut c a v).drive a' = c.drive a' := by
  by_cases hr : c.acceptRead a' = true
  · simp only [Component.drive, loaderPut_acceptRead, hr, if_true, Component.read]
    unfold loaderPut
    split
    · rename_i ha
      show Memory.get (Memory.set c.store (a.toNat - c.start) v) (a'.toNat - c.start) = _
      apply Memory.get_set_ne
      simp only [Component.acceptRead, Bool.and_eq_true, decide_eq_true_eq] at ha hr
      intro e
      exact h (BitVec.eq_of_toNat_eq (by omega))
    · rfl
  · simp [Component.drive, hr]

theorem loaderPut_drive_same {c : Component} (hw : c.wf = true) {a : Word} (v) (ha : c.acceptRead a = true) :
    (loaderPut c a v).drive a = v := by
  simp only [Component.drive, loaderPut_acceptRead, ha, if_true, Component.read]
  simp only [loaderPut, ha, if_true]
  simp only [Component.wf, Memory.wf, Bool.and_eq_true] at hw
  exact Memory.get_set_same hw.2.1 _ _

theorem loaderPut_wf {c : Component} (hw : c.wf = true) (a v) : (loaderPut c a v).wf = true := by
  unfold loaderPut
  split
  · rename_i hr
    simp only [Component.acceptRead, Bool.and_eq_true, decide_eq_true_eq] at hr
    simp only [Component.wf, Bool.and_eq_true] at hw ⊢
    exact ⟨hw.1, Memory.wf_set hw.2 (by omega) v⟩
  · exact hw

/-- The RAM of one byte that covers an address no component covers. -/
theorem Bus.place_uncovered {bus : Bus} {a : Word} (h : bus.covers a = false) (v : Byte) :
    bus.place a v = bus ++ [{ kind := .ram, start := a.toNat, stop := a.toNat + 1, store := Memory.set [] 0 v }] := by
  simp [Bus.place, h]

theorem Bus.place_covered {bus : Bus} {a : Word} (h : bus.covers a = true) (v : Byte) :
    bus.place a v = bus.map (fun c => loaderPut c a v) := by simp [Bus.place, h]

theorem Bus.read_map_loaderPut_ne (bus : Bus) {a a' : Word} (v) (h : a' ≠ a) :
    Bus.read (bus.map (fun c => loaderPut c a v)) a' = bus.read a' := by
  induction bus with
  | nil => rfl
  | cons c rest ih => rw [List.map_cons, Bus.read_cons, Bus.read_cons, ih, loaderPut_drive_ne c v h]

theorem Bus.read_map_loaderPut_same {bus : Bus} (hw : bus.wf = true) {a : Word} (v) (h : bus.covers a = true) :
    Bus.read (bus.map (fun c => loaderPut c a v)) a = v := by
  induction bus with
  | nil => cases h
  | cons c rest ih =>
    simp only [Bus.wf, List.all_cons, Bool.and_eq_true] at hw
    rw [List.map_cons, Bus.read_cons]
    by_cases hrest : Bus.covers rest a = true
    · rw [ih hw.2 hrest]
      by_cases hc : c.acceptRead a = true
      · rw [loaderPut_drive_same hw.1 v hc]; simp
      · simp [Component.drive, hc]
    · have hc : c.acceptRead a = true := by
        simp only [Bus.covers, List.any_cons, Bool.or_eq_true] at h hrest
        tauto
      have hrest' : Bus.covers (rest.map (fun c => loaderPut c a v)) a = false := by
        simp only [Bus.covers, List.any_map, Function.comp_def, loaderPut_acceptRead]
        simpa [Bus.covers] using hrest
      rw [loaderPut_drive_same hw.1 v hc, Bus.read_uncovered hrest']; simp

/-- A placed byte is covered and read back, every other address reads as before and stays covered, and the Bus stays
well formed. -/
theorem Bus.place_spec {bus : Bus} (hw : bus.wf = true) (a : Word) (v : Byte) :
    (bus.place a v).read a = v ∧ (bus.place a v).covers a = true ∧ (bus.place a v).wf = true ∧
      ∀ a', a' ≠ a → (bus.place a v).read a' = bus.read a' ∧ (bus.place a v).covers a' = bus.covers a' := by
  cases h : bus.covers a with
  | true =>
    rw [Bus.place_covered h]
    have hcov : ∀ a', Bus.covers (bus.map (fun c => loaderPut c a v)) a' = bus.covers a' := fun a' => by
      simp only [Bus.covers, List.any_map, Function.comp_def, loaderPut_acceptRead]
    refine ⟨Bus.read_map_loaderPut_same hw v h, by rw [hcov, h], ?_,
      fun a' ha => ⟨Bus.read_map_loaderPut_ne bus v ha, hcov a'⟩⟩
    simp only [Bus.wf, List.all_eq_true] at hw ⊢
    intro c hc
    obtain ⟨c0, h0, rfl⟩ := List.mem_map.1 hc
    exact loaderPut_wf (hw c0 h0) a v
  | false =>
    rw [Bus.place_uncovered h]
    have ha : a.toNat < 65536 := a.isLt
    refine ⟨?_, ?_, ?_, fun a' hne => ?_⟩
    · rw [Bus.read_append, Bus.read_uncovered h, Bus.read_cons]
      have : Memory.get (Memory.set [] 0 v) 0 = v := Memory.get_set_same (low := 0) rfl 0 v
      simp [Component.drive, Component.acceptRead, Component.read, this]
    · simp [Bus.covers, Component.acceptRead]
    · have : Memory.wf 1 (Memory.set [] 0 v) = true := Memory.wf_set rfl (by omega) v
      have hb : boundsWf a.toNat (a.toNat + 1) = true := by
        unfold boundsWf; rw [Bool.and_eq_true]
        exact ⟨decide_eq_true (by omega), decide_eq_true (Nat.succ_le_of_lt ha)⟩
      simp only [Bus.wf, List.all_append, Bool.and_eq_true] at hw ⊢
      refine ⟨hw, ?_⟩
      simp [Component.wf, hb, this]
    · have hacc : ¬ (a.toNat ≤ a'.toNat ∧ a'.toNat < a.toNat + 1) := fun hh =>
        hne (BitVec.eq_of_toNat_eq (by omega))
      have hacc' : (decide (a.toNat ≤ a'.toNat) && decide (a'.toNat < a.toNat + 1)) = false := by
        rw [← Bool.not_eq_true, Bool.and_eq_true, decide_eq_true_eq, decide_eq_true_eq]; exact hacc
      constructor
      · rw [Bus.read_append, Bus.read_cons]
        simp only [Component.drive, Component.acceptRead, hacc']
        simp
      · simp only [Bus.covers, List.any_append, List.any_cons, List.any_nil, Component.acceptRead, hacc']
        simp

/-- Four placed bytes are covered and read back at their four addresses, across the top of the space too. -/
theorem Bus.placeBytes_four {bus : Bus} (hw : bus.wf = true) (a : Word) (v0 v1 v2 v3 : Byte) :
    let bus' := bus.placeBytes a [v0, v1, v2, v3]
    bus'.read a = v0 ∧ bus'.read (a + 1) = v1 ∧ bus'.read (a + 2) = v2 ∧ bus'.read (a + 3) = v3 ∧
      bus'.covers a = true ∧ bus'.covers (a + 1) = true ∧ bus'.wf = true := by
  have e2 : a + 1#16 + 1#16 = a + 2#16 := by rw [BitVec.add_assoc]; rfl
  have e3 : a + 2#16 + 1#16 = a + 3#16 := by rw [BitVec.add_assoc]; rfl
  have ne : ∀ x y : Word, x ≠ y → a + x ≠ a + y := fun x y h e => h (by simpa using e)
  have n01 : a ≠ a + 1 := by simp
  have n02 : a ≠ a + 2 := by simp
  have n03 : a ≠ a + 3 := by simp
  have n12 : a + 1 ≠ a + 2 := ne _ _ (by decide)
  have n13 : a + 1 ≠ a + 3 := ne _ _ (by decide)
  have n23 : a + 2 ≠ a + 3 := ne _ _ (by decide)
  obtain ⟨r0, c0, w0, -⟩ := Bus.place_spec hw a v0
  obtain ⟨r1, c1, w1, k1⟩ := Bus.place_spec w0 (a + 1) v1
  obtain ⟨r2, -, w2, k2⟩ := Bus.place_spec w1 (a + 2) v2
  obtain ⟨r3, -, w3, k3⟩ := Bus.place_spec w2 (a + 3) v3
  have hp : bus.placeBytes a [v0, v1, v2, v3] =
      (((bus.place a v0).place (a + 1) v1).place (a + 2) v2).place (a + 3) v3 := by
    simp only [Bus.placeBytes]
    rw [show a + 1 + 1 = a + 2 from e2, show a + 2 + 1 = a + 3 from e3]
  simp only [hp]
  refine ⟨?_, ?_, ?_, r3, ?_, ?_, w3⟩
  · rw [(k3 _ n03).1, (k2 _ n02).1, (k1 _ n01).1, r0]
  · rw [(k3 _ n13).1, (k2 _ n12).1, r1]
  · rw [(k3 _ n23).1, r2]
  · rw [(k3 _ n03).2, (k2 _ n02).2, (k1 _ n01).2, c0]
  · rw [(k3 _ n13).2, (k2 _ n12).2, c1]

end Sys2Proof.Machine
end

