-- ==== Sys2Proof/Laws/Run.lean ====
section
/-! SUPPORT. Runs (40_engine.md R96 to R98): the induction over a run's inputs, packaged once. -/

namespace Sys2Proof.Machine

/-- What every step and every host action keeps, every normal run keeps. -/
theorem runInputs_keeps {P : State → Prop} (hstep : ∀ s t, P s → step s = .next t → P t)
    (hhost : ∀ s action, P s → P (hostAct s action)) {inputs : List RunInput} {s t : State}
    (hs : P s) (h : runInputs inputs s = .next t) : P t := by
  induction inputs generalizing s with
  | nil => cases h; exact hs
  | cons input rest ih =>
    cases input with
    | host action => exact ih (hhost s action hs) h
    | instruction =>
      simp only [runInputs] at h
      split at h
      · exact ih (hstep _ _ hs ‹_›) h
      · cases h
      · cases h

@[simp] theorem runInputs_nil (s : State) : runInputs [] s = .next s := rfl

/-- A run of one instruction is one step (R98). -/
@[simp] theorem runInputs_instruction (s : State) : runInputs [.instruction] s = step s := by
  simp only [runInputs]; cases step s <;> rfl

/-- A run of one host action is that action (R97). -/
@[simp] theorem runInputs_host (s : State) (action : HostAction) :
    runInputs [.host action] s = .next (hostAct s action) := rfl

/-- A run over two input lists is the first, then the second from where it ended (R98). -/
theorem runInputs_append (first later : List RunInput) (s : State) :
    runInputs (first ++ later) s = match runInputs first s with
      | .next t => runInputs later t
      | .fault f => .fault f
      | .refused r => .refused r := by
  induction first generalizing s with
  | nil => rfl
  | cons input rest ih =>
    cases input with
    | host action => exact ih _
    | instruction =>
      simp only [List.cons_append, runInputs]
      cases step s with
      | next t => exact ih t
      | fault f => rfl
      | refused r => rfl

/-! ### What the host's actions keep -/

@[simp] theorem State.clearFlags_bus (s : State) : s.clearFlags.bus = s.bus := rfl
@[simp] theorem State.clearFlags_params (s : State) : s.clearFlags.params = s.params := rfl

/-- A host action changes the Bus by at most the writes of one word, and no parameter (R97). -/
theorem hostAct_bus (s : State) (action : HostAction) :
    ((hostAct s action).bus = s.bus ∨ (∃ a v, (hostAct s action).bus = s.bus.write a v) ∨
      ∃ a v, (hostAct s action).bus = s.bus.writeWord a v) ∧ (hostAct s action).params = s.params := by
  cases action with
  | busWrite a v => exact ⟨.inr (.inl ⟨a, v, rfl⟩), rfl⟩
  | busWriteWord a v => exact ⟨.inr (.inr ⟨a, v, rfl⟩), rfl⟩
  | setFlag f value => exact ⟨.inl (by simp [hostAct, State.setFlagInverted]), by simp [hostAct, State.setFlagInverted]⟩
  | _ => exact ⟨.inl rfl, rfl⟩

/-- A step changes the Bus by at most one byte write, and no parameter (R66, R61). -/
theorem step_bus {s t : State} (h : step s = .next t) :
    (t.bus = s.bus ∨ ∃ a v, t.bus = s.bus.write a v) ∧ t.params = s.params := by
  obtain ⟨i, u, -, hi, rfl⟩ := step_next h
  obtain ⟨rfl, -⟩ := exec_next hi
  obtain ⟨r, v, -, e⟩ | ⟨a, v, -, e⟩ | ⟨v, -, -, -, e⟩ := afterForm_cases s i.form <;> rw [e]
  · exact ⟨.inl rfl, rfl⟩
  · exact ⟨.inr ⟨a, v, rfl⟩, rfl⟩
  · exact ⟨.inl (by simp [afterVector]), by simp [afterVector]⟩

end Sys2Proof.Machine
end

