-- ==== Sys2Proof/Tests/Slice0.lean ====
section
/-! SUPPORT. The model's own tests: the WellFormed smoke, decoding by words written out from the spec's encodings, the
vectors of spec/95_test_vectors.md (each named by its id), and a witness for the hypotheses of every statement. -/

open Sys2Proof Sys2Proof.Machine

namespace Sys2Proof.Tests

/-! ### Helpers -/

/-- The result is a next state with a property. -/
def answers (r : Result) (p : State → Bool) : Bool :=
  match r with
  | .next t => p t
  | .fault _ => false
  | .refused _ => false

/-- The result is this fault. -/
def faultsWith (r : Result) (f : Fault) : Bool :=
  match r with
  | .fault g => decide (g = f)
  | .next _ => false
  | .refused _ => false

/-- The result is this refusal. -/
def refusesWith (r : Result) (q : Refusal) : Bool :=
  match r with
  | .refused q' => decide (q' = q)
  | .next _ => false
  | .fault _ => false

/-- Map M1 of the vectors: one RAM over all of memory. -/
def m1 (cells : Memory) : Bus := [⟨.ram, 0, 65536, cells⟩]

/-- Map M0: RAM below 0x8000, ROM above, the ROM's image as (offset, byte) pairs. -/
def m0 (cells image : Memory) : Bus := [⟨.ram, 0, 0x8000, cells⟩, ⟨.rom, 0x8000, 65536, image⟩]

/-- Map M2: RAM below 0x8000 only. -/
def m2 (cells : Memory) : Bus := [⟨.ram, 0, 0x8000, cells⟩]

/-- The reset state with these registers and this Bus. -/
def stateWith (regs : RegFile) (bus : Bus) : State := { State.reset with regs := regs, bus := bus }

/-- The same with FAULT_ON_UNMAPPED true. -/
def strictState (regs : RegFile) (bus : Bus) : State :=
  { stateWith regs bus with params := { Params.default with faultOnUnmapped := true } }

/-! ### WellFormed refuses ill-formed terms -/

/-- One ill-formed instruction for each layout (R73): operands missing, or of another layout. -/
theorem test_wf_refuses_wrong_operands :
    Asm.wf ⟨Instr.ld_B_C, .imm 1⟩ = false ∧ Asm.wf ⟨Instr.ld_B_n, .none⟩ = false ∧
    Asm.wf ⟨Instr.ld_A_atnn, .imm 1⟩ = false ∧ Asm.wf ⟨Instr.ld_A_I, .disp 1⟩ = false ∧
    Asm.wf ⟨Instr.ld_B_atIX, .none⟩ = false ∧ Asm.wf ⟨Instr.ld_atIX_n, .disp 1⟩ = false := by decide

/-- R51: start > end (A11) and end > 65536 are refused; the whole space and an empty range are admitted. -/
theorem test_wf_refuses_bad_bounds :
    boundsWf 0x9000 0x8000 = false ∧ boundsWf 0 65537 = false ∧ boundsWf 0 65536 = true ∧
    boundsWf 0x100 0x100 = true := by decide

/-- R51: overlapping ranges are not disjoint; touching ones and an empty one are. -/
theorem test_wf_refuses_overlap :
    rangesDisjoint 0 65536 0x8000 0x8100 = false ∧ rangesDisjoint 0 0x8000 0x8000 65536 = true ∧
    rangesDisjoint 0 65536 0x100 0x100 = true := by decide

/-- R79, R80: a prefix alone, a second byte behind no prefix, 0xCB, a wrong length and a repeated key make no table. -/
theorem test_wf_refuses_bad_dispatch_rows :
    dispatchRowsWf [([0xDD], Instr.ld_B_C)] = false ∧ dispatchRowsWf [([0x00, 0x01], Instr.ld_A_I)] = false ∧
    dispatchRowsWf [([0xCB, 0x01], Instr.ld_A_I)] = false ∧ dispatchRowsWf [([0x00], Instr.ld_A_I)] = false ∧
    dispatchRowsWf [([0x00], Instr.ld_B_C), ([0x00], Instr.ld_B_D)] = false ∧
    dispatchRowsWf [([0x00], Instr.ld_B_C), ([0xED, 0x00], Instr.ld_A_I)] = true := by decide

/-- A store in canonical form has rising offsets below its size and lists no zero byte. -/
theorem test_wf_refuses_bad_store :
    Memory.wf 4 [(1, 5), (1, 6)] = false ∧ Memory.wf 4 [(2, 5), (1, 6)] = false ∧ Memory.wf 4 [(1, 0)] = false ∧
    Memory.wf 4 [(4, 1)] = false ∧ Memory.wf 4 [(0, 1), (3, 2)] = true := by decide

/-! ### Decoding -/

/-- R101: the words of R73's layout with the codes of R74, bit by bit. -/
theorem test_decode_ld_B_r :
    decodeOpcode [0b01000000] = some Instr.ld_B_B ∧
    decodeOpcode [0b01000001] = some Instr.ld_B_C ∧
    decodeOpcode [0b01000010] = some Instr.ld_B_D ∧
    decodeOpcode [0b01000011] = some Instr.ld_B_E ∧
    decodeOpcode [0b01000100] = some Instr.ld_B_H ∧
    decodeOpcode [0b01000101] = some Instr.ld_B_L ∧
    decodeOpcode [0b01000111] = some Instr.ld_B_A := by decide

/-- R101: the words of R73's layout with the codes of R74, bit by bit. -/
theorem test_decode_ld_C_r :
    decodeOpcode [0b01001000] = some Instr.ld_C_B ∧
    decodeOpcode [0b01001001] = some Instr.ld_C_C ∧
    decodeOpcode [0b01001010] = some Instr.ld_C_D ∧
    decodeOpcode [0b01001011] = some Instr.ld_C_E ∧
    decodeOpcode [0b01001100] = some Instr.ld_C_H ∧
    decodeOpcode [0b01001101] = some Instr.ld_C_L ∧
    decodeOpcode [0b01001111] = some Instr.ld_C_A := by decide

/-- R101: the words of R73's layout with the codes of R74, bit by bit. -/
theorem test_decode_ld_D_r :
    decodeOpcode [0b01010000] = some Instr.ld_D_B ∧
    decodeOpcode [0b01010001] = some Instr.ld_D_C ∧
    decodeOpcode [0b01010010] = some Instr.ld_D_D ∧
    decodeOpcode [0b01010011] = some Instr.ld_D_E ∧
    decodeOpcode [0b01010100] = some Instr.ld_D_H ∧
    decodeOpcode [0b01010101] = some Instr.ld_D_L ∧
    decodeOpcode [0b01010111] = some Instr.ld_D_A := by decide

/-- R101: the words of R73's layout with the codes of R74, bit by bit. -/
theorem test_decode_ld_E_r :
    decodeOpcode [0b01011000] = some Instr.ld_E_B ∧
    decodeOpcode [0b01011001] = some Instr.ld_E_C ∧
    decodeOpcode [0b01011010] = some Instr.ld_E_D ∧
    decodeOpcode [0b01011011] = some Instr.ld_E_E ∧
    decodeOpcode [0b01011100] = some Instr.ld_E_H ∧
    decodeOpcode [0b01011101] = some Instr.ld_E_L ∧
    decodeOpcode [0b01011111] = some Instr.ld_E_A := by decide

/-- R101: the words of R73's layout with the codes of R74, bit by bit. -/
theorem test_decode_ld_H_r :
    decodeOpcode [0b01100000] = some Instr.ld_H_B ∧
    decodeOpcode [0b01100001] = some Instr.ld_H_C ∧
    decodeOpcode [0b01100010] = some Instr.ld_H_D ∧
    decodeOpcode [0b01100011] = some Instr.ld_H_E ∧
    decodeOpcode [0b01100100] = some Instr.ld_H_H ∧
    decodeOpcode [0b01100101] = some Instr.ld_H_L ∧
    decodeOpcode [0b01100111] = some Instr.ld_H_A := by decide

/-- R101: the words of R73's layout with the codes of R74, bit by bit. -/
theorem test_decode_ld_L_r :
    decodeOpcode [0b01101000] = some Instr.ld_L_B ∧
    decodeOpcode [0b01101001] = some Instr.ld_L_C ∧
    decodeOpcode [0b01101010] = some Instr.ld_L_D ∧
    decodeOpcode [0b01101011] = some Instr.ld_L_E ∧
    decodeOpcode [0b01101100] = some Instr.ld_L_H ∧
    decodeOpcode [0b01101101] = some Instr.ld_L_L ∧
    decodeOpcode [0b01101111] = some Instr.ld_L_A := by decide

/-- R101: the words of R73's layout with the codes of R74, bit by bit. -/
theorem test_decode_ld_A_r :
    decodeOpcode [0b01111000] = some Instr.ld_A_B ∧
    decodeOpcode [0b01111001] = some Instr.ld_A_C ∧
    decodeOpcode [0b01111010] = some Instr.ld_A_D ∧
    decodeOpcode [0b01111011] = some Instr.ld_A_E ∧
    decodeOpcode [0b01111100] = some Instr.ld_A_H ∧
    decodeOpcode [0b01111101] = some Instr.ld_A_L ∧
    decodeOpcode [0b01111111] = some Instr.ld_A_A := by decide

/-- R102: the words of R73's layout with the codes of R74, bit by bit. -/
theorem test_decode_ld_r_n :
    decodeOpcode [0b00000110] = some Instr.ld_B_n ∧
    decodeOpcode [0b00001110] = some Instr.ld_C_n ∧
    decodeOpcode [0b00010110] = some Instr.ld_D_n ∧
    decodeOpcode [0b00011110] = some Instr.ld_E_n ∧
    decodeOpcode [0b00100110] = some Instr.ld_H_n ∧
    decodeOpcode [0b00101110] = some Instr.ld_L_n ∧
    decodeOpcode [0b00111110] = some Instr.ld_A_n := by decide

/-- R103: the words of R73's layout with the codes of R74, bit by bit. -/
theorem test_decode_ld_r_atHL :
    decodeOpcode [0b01000110] = some Instr.ld_B_atHL ∧
    decodeOpcode [0b01001110] = some Instr.ld_C_atHL ∧
    decodeOpcode [0b01010110] = some Instr.ld_D_atHL ∧
    decodeOpcode [0b01011110] = some Instr.ld_E_atHL ∧
    decodeOpcode [0b01100110] = some Instr.ld_H_atHL ∧
    decodeOpcode [0b01101110] = some Instr.ld_L_atHL ∧
    decodeOpcode [0b01111110] = some Instr.ld_A_atHL := by decide

/-- R104: the words of R73's layout with the codes of R74, bit by bit. -/
theorem test_decode_ld_A_atBC :
    decodeOpcode [0b00001010] = some Instr.ld_A_atBC := by decide

/-- R105: the words of R73's layout with the codes of R74, bit by bit. -/
theorem test_decode_ld_A_atDE :
    decodeOpcode [0b00011010] = some Instr.ld_A_atDE := by decide

/-- R106: the words of R73's layout with the codes of R74, bit by bit. -/
theorem test_decode_ld_r_atIX :
    decodeOpcode [0b11011101, 0b01000110] = some Instr.ld_B_atIX ∧
    decodeOpcode [0b11011101, 0b01001110] = some Instr.ld_C_atIX ∧
    decodeOpcode [0b11011101, 0b01010110] = some Instr.ld_D_atIX ∧
    decodeOpcode [0b11011101, 0b01011110] = some Instr.ld_E_atIX ∧
    decodeOpcode [0b11011101, 0b01100110] = some Instr.ld_H_atIX ∧
    decodeOpcode [0b11011101, 0b01101110] = some Instr.ld_L_atIX ∧
    decodeOpcode [0b11011101, 0b01111110] = some Instr.ld_A_atIX := by decide

/-- R107: the words of R73's layout with the codes of R74, bit by bit. -/
theorem test_decode_ld_r_atIY :
    decodeOpcode [0b11111101, 0b01000110] = some Instr.ld_B_atIY ∧
    decodeOpcode [0b11111101, 0b01001110] = some Instr.ld_C_atIY ∧
    decodeOpcode [0b11111101, 0b01010110] = some Instr.ld_D_atIY ∧
    decodeOpcode [0b11111101, 0b01011110] = some Instr.ld_E_atIY ∧
    decodeOpcode [0b11111101, 0b01100110] = some Instr.ld_H_atIY ∧
    decodeOpcode [0b11111101, 0b01101110] = some Instr.ld_L_atIY ∧
    decodeOpcode [0b11111101, 0b01111110] = some Instr.ld_A_atIY := by decide

/-- R108: the words of R73's layout with the codes of R74, bit by bit. -/
theorem test_decode_ld_atHL_r :
    decodeOpcode [0b01110000] = some Instr.ld_atHL_B ∧
    decodeOpcode [0b01110001] = some Instr.ld_atHL_C ∧
    decodeOpcode [0b01110010] = some Instr.ld_atHL_D ∧
    decodeOpcode [0b01110011] = some Instr.ld_atHL_E ∧
    decodeOpcode [0b01110100] = some Instr.ld_atHL_H ∧
    decodeOpcode [0b01110101] = some Instr.ld_atHL_L ∧
    decodeOpcode [0b01110111] = some Instr.ld_atHL_A := by decide

/-- R109: the words of R73's layout with the codes of R74, bit by bit. -/
theorem test_decode_ld_atBC_A :
    decodeOpcode [0b00000010] = some Instr.ld_atBC_A := by decide

/-- R110: the words of R73's layout with the codes of R74, bit by bit. -/
theorem test_decode_ld_atDE_A :
    decodeOpcode [0b00010010] = some Instr.ld_atDE_A := by decide

/-- R111: the words of R73's layout with the codes of R74, bit by bit. -/
theorem test_decode_ld_atHL_n :
    decodeOpcode [0b00110110] = some Instr.ld_atHL_n := by decide

/-- R112: the words of R73's layout with the codes of R74, bit by bit. -/
theorem test_decode_ld_atIX_n :
    decodeOpcode [0b11011101, 0b00110110] = some Instr.ld_atIX_n := by decide

/-- R113: the words of R73's layout with the codes of R74, bit by bit. -/
theorem test_decode_ld_atIY_n :
    decodeOpcode [0b11111101, 0b00110110] = some Instr.ld_atIY_n := by decide

/-- R114: the words of R73's layout with the codes of R74, bit by bit. -/
theorem test_decode_ld_A_atnn :
    decodeOpcode [0b00111010] = some Instr.ld_A_atnn := by decide

/-- R115: the words of R73's layout with the codes of R74, bit by bit. -/
theorem test_decode_ld_atnn_A :
    decodeOpcode [0b00110010] = some Instr.ld_atnn_A := by decide

/-- R116: the words of R73's layout with the codes of R74, bit by bit. -/
theorem test_decode_ld_A_I :
    decodeOpcode [0b11101101, 0b01010111] = some Instr.ld_A_I := by decide

/-- R117: the words of R73's layout with the codes of R74, bit by bit. -/
theorem test_decode_ld_A_R :
    decodeOpcode [0b11101101, 0b01011111] = some Instr.ld_A_R := by decide

/-- The operands' places and byte order (R73, R77, R78), and what is left over. -/
theorem test_decode_operands :
    decode [0x3A, 0x34, 0x12, 0x99] = .ok (⟨Instr.ld_A_atnn, .addr 0x1234⟩, [0x99]) ∧
    decode [0xDD, 0x36, 0xFB, 0x77] = .ok (⟨Instr.ld_atIX_n, .dispImm 0xFB 0x77⟩, []) ∧
    decode [0xFD, 0x46, 0x05] = .ok (⟨Instr.ld_B_atIY, .disp 0x05⟩, []) ∧
    decode [0x06, 0x2A] = .ok (⟨Instr.ld_B_n, .imm 0x2A⟩, []) := by decide

/-- J1 to J9: refused encodings (R82). -/
theorem test_decode_refusals :
    decode [0x00] = .error (.unadmittedOpcode [0x00]) ∧ decode [0x76] = .error (.unadmittedOpcode [0x76]) ∧
    decode [0xCB, 0x00] = .error (.unadmittedOpcode [0xCB]) ∧
    decode [0xDD, 0x70, 0x00] = .error (.unadmittedOpcode [0xDD, 0x70]) ∧
    decode [0xDD, 0x76] = .error (.unadmittedOpcode [0xDD, 0x76]) ∧
    decode [0xDD, 0xDD, 0x7E, 0x00] = .error (.unadmittedOpcode [0xDD, 0xDD]) ∧
    decode [0xDD, 0x21, 0x00, 0x00] = .error (.unadmittedOpcode [0xDD, 0x21]) ∧
    decode [0xFD, 0xCB, 0x00, 0x06] = .error (.unadmittedOpcode [0xFD, 0xCB]) ∧
    decode [0xED, 0x47] = .error (.unadmittedOpcode [0xED, 0x47]) := by decide

/-- J10 to J14: refused encodings (R82). -/
theorem test_decode_more_refusals :
    decode [0xED, 0x4F] = .error (.unadmittedOpcode [0xED, 0x4F]) ∧
    decode [0xED, 0x00] = .error (.unadmittedOpcode [0xED, 0x00]) ∧
    decode [0x01, 0x34, 0x12] = .error (.unadmittedOpcode [0x01]) ∧
    decode [0xC3, 0x00, 0x00] = .error (.unadmittedOpcode [0xC3]) ∧
    decode [0xDD, 0x44] = .error (.unadmittedOpcode [0xDD, 0x44]) := by decide

/-- Table words in both numberings of a two-byte row (log 13). -/
theorem test_decode_table_words :
    decodeTableWord 8 0x41 = some Instr.ld_B_C ∧ decodeTableWord 8 0x3E = some Instr.ld_A_n ∧
    decodeTableWord 16 0xDD7E = some Instr.ld_A_atIX ∧ decodeTableWord 16 0x7EDD = some Instr.ld_A_atIX ∧
    decodeTableWord 16 0xFD66 = some Instr.ld_H_atIY ∧ decodeTableWord 16 0x66FD = some Instr.ld_H_atIY ∧
    decodeTableWord 16 0xDD36 = some Instr.ld_atIX_n ∧ decodeTableWord 16 0x36DD = some Instr.ld_atIX_n ∧
    decodeTableWord 16 0xED5F = some Instr.ld_A_R ∧ decodeTableWord 16 0x5FED = some Instr.ld_A_R ∧
    decodeTableWord 8 0x76 = none := by decide

/-- R85: the assembler's spelling. -/
theorem test_spelling :
    Asm.spelling ⟨Instr.ld_B_atIX, .disp 0x80⟩ = "LD B,(IX-128)" ∧
    Asm.spelling ⟨Instr.ld_atnn_A, .addr 0x1000⟩ = "LD (0x1000),A" := by decide

/-! ### Registers, flags and the Bus -/

/-- A1, A2, L1-1 c and e: the halves of a cell (R17 to R19). -/
theorem test_halves :
    ((State.reset.writeWord .hl 0x1234).writeByte .l 0xFF).readWord .hl = 0x12FF ∧
    ((State.reset.writeWord .af 0xABCD).writeByte .a 0x00).readWord .af = 0x00CD ∧
    ((State.reset.writeByte .h 0xAB).writeByte .l 0xCD).readWord .hl = 0xABCD ∧
    ((State.reset.writeByte .i 0x80).writeByte .r 0x01).regs.ir = 0x8001 := by decide

/-- L1-2 b and e: Step wraps and answers the PC before (R26). -/
theorem test_step_pc :
    ((State.reset.writeWord .pc 0xFFFF).stepPC 2).1 = 0xFFFF ∧
    ((State.reset.writeWord .pc 0xFFFF).stepPC 2).2.readWord .pc = 0x0001 ∧
    ((State.reset.writeWord .pc 0x0001).stepPC 0xFFFF).2.readWord .pc = 0x0000 := by decide

/-- L1-3 a, d, e, f and g: the flag operations, the inverted `set` among them (R30 to R34). -/
theorem test_flags :
    (State.reset.enableFlag .z).readByte .f = 0x40 ∧
    ((State.reset.writeByte .f 0x28).enableFlag .c).readByte .f = 0x29 ∧
    ((State.reset.writeByte .f 0x01).setFlagInverted .c true).readByte .f = 0x00 ∧
    (State.reset.setFlagInverted .c false).readByte .f = 0x01 ∧
    ((State.reset.writeWord .af 0x12FF).clearFlags).readWord .af = 0x1200 := by decide

/-- The Bus of A8: a RAM over everything and a ROM in it. -/
def overlap (cells : Memory) : Bus := [⟨.ram, 0, 65536, cells⟩, ⟨.rom, 0x8000, 0x8100, [(0x10, 0x0F)]⟩]

/-- A8: reads OR, and a write reaches only the RAM (R53, R54). -/
theorem test_or_merge :
    Bus.read (overlap [(0x8010, 0xF0)]) 0x8010 = 0xFF ∧
    Bus.read (Bus.write (overlap [(0x8010, 0xF0)]) 0x8010 0x80) 0x8010 = 0x8F := by decide

/-- A7: a write is broadcast to every accepting RAM (R54). -/
theorem test_broadcast :
    Bus.write [⟨.ram, 0, 65536, []⟩, ⟨.ram, 0x1000, 0x1100, []⟩] 0x1000 0x77 =
      [⟨.ram, 0, 65536, [(0x1000, 0x77)]⟩, ⟨.ram, 0x1000, 0x1100, [(0, 0x77)]⟩] := by decide

/-- A4, A5 and L1-6 c: words are little-endian and wrap (R55, R56). -/
theorem test_words :
    Bus.writeWord (m1 []) 0x1000 0xBEEF = m1 [(0x1000, 0xEF), (0x1001, 0xBE)] ∧
    Bus.writeWord (m1 []) 0xFFFF 0x1234 = m1 [(0, 0x12), (0xFFFF, 0x34)] ∧
    Bus.readWord (m0 [(0, 0x12)] [(0x7FFF, 0x34)]) 0xFFFF = 0x1234 := by decide

/-- L1-5 to L1-7: a ROM write is dropped, an unowned address reads 0 and drops writes (R49, R57). -/
theorem test_dropped :
    Bus.write (m0 [] [(0x100, 0xC9)]) 0x8100 0xFF = m0 [] [(0x100, 0xC9)] ∧
    Bus.read (m0 [] [(0x100, 0xC9)]) 0x8100 = 0xC9 ∧ Bus.read (m2 []) 0x9000 = 0 ∧
    Bus.write (m2 []) 0x9000 0x11 = m2 [] := by decide

/-! ### Construction -/

/-- What the host asks for, registers zero. -/
def launchOf (components : List ComponentSpec) (params : Params) : Launch :=
  ⟨components, params, RegFile.zero, false, false⟩

/-- A9: STRICT_SINGLE_OWNER refuses overlap (R51). -/
theorem test_boot_strict_overlap :
    refusesWith (boot (launchOf [.ram 0 65536, .rom 0x8000 0x8001 [0x0F]]
      { Params.default with strictSingleOwner := true })) .overlappingComponents = true := by decide

/-- A11, and a ROM image of another size: refused (R51, R50, log 19). -/
theorem test_boot_bad_component :
    refusesWith (boot (launchOf [.ram 0x9000 0x8000] Params.default)) (.componentBounds 0x9000 0x8000) = true ∧
    refusesWith (boot (launchOf [.rom 0 2 [1]] Params.default)) (.romImageSize 0 2 1) = true ∧
    refusesWith (boot (launchOf [] { Params.default with dispatch := .custom [([0xCB], Instr.ld_B_C)] }))
      .dispatchTable = true := by decide

/-- M0 in small: RAM zeroed, the ROM's image at its start (R132, R133, R138); overlap is allowed by default. -/
theorem test_boot_accepts :
    answers (boot (launchOf [.ram 0 0x8000, .rom 0x8000 0x8002 [0x06, 0x2A]] Params.default))
      (fun t => t.bus.read 0x8000 == 0x06 && t.bus.read 0x8001 == 0x2A && t.bus.read 0x0000 == 0) = true ∧
    answers (boot (launchOf [.ram 0 65536, .rom 0x8000 0x8001 [0x0F]] Params.default)) (fun _ => true) = true := by
  decide

/-! ### One step of each family -/

/-- B1: LD B,C (R101). -/
theorem test_b1_ld_B_C :
    answers (step (stateWith { RegFile.zero with bc := 0x1234, pc := 0x0100 }
      (m1 [(0x0100, 0x41)])))
      (fun t => t.readWord .bc == 0x3434 && t.readWord .pc == 0x0101 && t.total == 1) = true := by decide

/-- B3: LD H,L (R101). -/
theorem test_b3_ld_H_L :
    answers (step (stateWith { RegFile.zero with hl := 0xABCD }
      (m1 [(0, 0x65)])))
      (fun t => t.readWord .hl == 0xCDCD && t.readWord .pc == 0x0001) = true := by decide

/-- B5: LD D,E at the top of memory (R101). -/
theorem test_b5_ld_D_E :
    answers (step (stateWith { RegFile.zero with de := 0x0102, pc := 0xFFFF }
      (m1 [(0xFFFF, 0x53)])))
      (fun t => t.readWord .de == 0x0202 && t.readWord .pc == 0x0000) = true := by decide

/-- B6: LD A,B leaves F alone (R101, R29). -/
theorem test_b6_ld_A_B :
    answers (step (stateWith { RegFile.zero with af := 0x00FF, bc := 0x9900 }
      (m1 [(0, 0x78)])))
      (fun t => t.readWord .af == 0x99FF) = true := by decide

/-- C2: LD A,n whose operand wraps to 0x0000 (R102). -/
theorem test_c2_ld_A_n :
    answers (step (stateWith { RegFile.zero with pc := 0xFFFF }
      (m1 [(0, 0x77), (0xFFFF, 0x3E)])))
      (fun t => t.readByte .a == 0x77 && t.readWord .pc == 0x0001 && t.total == 2) = true := by decide

/-- C3: LD C,n with an unowned operand address (R102, R57). -/
theorem test_c3_ld_C_n :
    answers (step (stateWith { RegFile.zero with pc := 0x7FFF }
      (m2 [(0x7FFF, 0x0E)])))
      (fun t => t.readByte .c == 0 && t.readWord .pc == 0x8001) = true := by decide

/-- D2: LD H,(HL) uses the HL before the write (R103). -/
theorem test_d2_ld_H_atHL :
    answers (step (stateWith { RegFile.zero with hl := 0x1000 }
      (m1 [(0, 0x66), (0x1000, 0x20)])))
      (fun t => t.readWord .hl == 0x2000 && t.total == 2) = true := by decide

/-- D4: LD A,(HL) reads its own opcode (R103). -/
theorem test_d4_ld_A_atHL :
    answers (step (stateWith { RegFile.zero with hl := 0x0300, pc := 0x0300 }
      (m1 [(0x0300, 0x7E)])))
      (fun t => t.readByte .a == 0x7E && t.readWord .pc == 0x0301) = true := by decide

/-- D6: LD A,(BC) from ROM, F kept (R104). -/
theorem test_d6_ld_A_atBC :
    answers (step (stateWith { RegFile.zero with af := 0x0081, bc := 0x8001 }
      (m0 [(0, 0x0A)] [(1, 0x2A)])))
      (fun t => t.readWord .af == 0x2A81 && t.total == 2) = true := by decide

/-- D7: LD A,(DE) at 0xFFFF (R105). -/
theorem test_d7_ld_A_atDE :
    answers (step (stateWith { RegFile.zero with de := 0xFFFF }
      (m1 [(0, 0x1A), (0xFFFF, 0xC9)])))
      (fun t => t.readByte .a == 0xC9 && t.total == 2) = true := by decide

/-- E2: LD B,(IX-128) (R106). -/
theorem test_e2_ld_B_atIX :
    answers (step (stateWith { RegFile.zero with ix := 0x1080 }
      (m1 [(0, 0xDD), (1, 0x46), (2, 0x80), (0x1000, 0x42)])))
      (fun t => t.readByte .b == 0x42 && t.readWord .pc == 0x0003 && t.total == 5) = true := by decide

/-- E6: LD H,(IX+0) changes H only (R106). -/
theorem test_e6_ld_H_atIX :
    answers (step (stateWith { RegFile.zero with ix := 0x3000, hl := 0x1234 }
      (m1 [(0, 0xDD), (1, 0x66), (0x3000, 0xAB)])))
      (fun t => t.readWord .hl == 0xAB34 && t.readWord .ix == 0x3000) = true := by decide

/-- E9: LD A,(IY-1) wraps (R107). -/
theorem test_e9_ld_A_atIY :
    answers (step (stateWith { RegFile.zero with pc := 0x0100 }
      (m1 [(0x0100, 0xFD), (0x0101, 0x7E), (0x0102, 0xFF), (0xFFFF, 0xEE)])))
      (fun t => t.readByte .a == 0xEE && t.total == 5) = true := by decide

/-- E10: 0xFD selects IY (R107). -/
theorem test_e10_ld_A_atIY :
    answers (step (stateWith { RegFile.zero with ix := 0x5000, iy := 0x6000 }
      (m1 [(0, 0xFD), (1, 0x7E), (0x5000, 0x01), (0x6000, 0x02)])))
      (fun t => t.readByte .a == 0x02) = true := by decide

/-- F3: LD (HL),L (R108). -/
theorem test_f3_ld_atHL_L :
    answers (step (stateWith { RegFile.zero with hl := 0x4010 }
      (m1 [(0, 0x75)])))
      (fun t => t.bus == m1 [(0, 0x75), (0x4010, 0x10)] && t.readWord .pc == 0x0001 && t.total == 2) = true := by decide

/-- F4: LD (HL),B into ROM is dropped (R108, R57). -/
theorem test_f4_ld_atHL_B :
    answers (step (stateWith { RegFile.zero with hl := 0x8100, bc := 0x0100 }
      (m0 [(0, 0x70)] [(0x100, 0xC9)])))
      (fun t => t.bus == m0 [(0, 0x70)] [(0x100, 0xC9)] && t.readWord .pc == 0x0001) = true := by decide

/-- F7: LD (BC),A at the last RAM byte (R109). -/
theorem test_f7_ld_atBC_A :
    answers (step (stateWith { RegFile.zero with bc := 0x7FFF, af := 0x0100 }
      (m0 [(0, 0x02)] [])))
      (fun t => t.bus == m0 [(0, 0x02), (0x7FFF, 0x01)] [] && t.total == 2) = true := by decide

/-- F9: LD (DE),A at an unowned address is dropped (R110, R57). -/
theorem test_f9_ld_atDE_A :
    answers (step (stateWith { RegFile.zero with de := 0xC000, af := 0x5A00 }
      (m2 [(0, 0x12)])))
      (fun t => t.bus == m2 [(0, 0x12)] && t.readWord .pc == 0x0001) = true := by decide

/-- F10: LD (HL),A into two RAMs (R108, R54). -/
theorem test_f10_ld_atHL_A :
    answers (step (stateWith { RegFile.zero with hl := 0x1000, af := 0x6600 }
      ([⟨.ram, 0, 65536, [(0, 0x77)]⟩, ⟨.ram, 0x1000, 0x1100, []⟩])))
      (fun t => t.bus == [⟨.ram, 0, 65536, [(0, 0x77), (0x1000, 0x66)]⟩, ⟨.ram, 0x1000, 0x1100, [(0, 0x66)]⟩]) = true := by decide

/-- G3: LD (HL),n over its own opcode (R111). -/
theorem test_g3_ld_atHL_n :
    answers (step (stateWith { RegFile.zero with hl := 0x0100, pc := 0x0100 }
      (m1 [(0x0100, 0x36), (0x0101, 0xC9)])))
      (fun t => t.bus.read 0x0100 == 0xC9 && t.readWord .pc == 0x0102 && t.total == 3) = true := by decide

/-- G7: LD (IX+127),n across the top of memory (R112). -/
theorem test_g7_ld_atIX_n :
    answers (step (stateWith { RegFile.zero with ix := 0x1000, pc := 0xFFFD }
      (m1 [(0, 0x33), (0xFFFD, 0xDD), (0xFFFE, 0x36), (0xFFFF, 0x7F)])))
      (fun t => t.bus.read 0x107F == 0x33 && t.readWord .pc == 0x0001 && t.total == 5) = true := by decide

/-- G9: LD (IY-128),n (R113). -/
theorem test_g9_ld_atIY_n :
    answers (step (stateWith { RegFile.zero with iy := 0x8000 }
      (m0 [(0, 0xFD), (1, 0x36), (2, 0x80), (3, 0x55)] [])))
      (fun t => t.bus.read 0x7F80 == 0x55 && t.readWord .pc == 0x0004 && t.total == 5) = true := by decide

/-- G10: LD (IY+0),n over its own displacement (R113). -/
theorem test_g10_ld_atIY_n :
    answers (step (stateWith { RegFile.zero with iy := 0x0102, pc := 0x0100 }
      (m1 [(0x0100, 0xFD), (0x0101, 0x36), (0x0103, 0xEE)])))
      (fun t => t.bus.read 0x0102 == 0xEE) = true := by decide

/-- H2: LD A,(nn) whose nn wraps (R114). -/
theorem test_h2_ld_A_atnn :
    answers (step (stateWith { RegFile.zero with pc := 0xFFFE }
      (m1 [(0, 0x20), (0x2000, 0x9C), (0xFFFE, 0x3A)])))
      (fun t => t.readByte .a == 0x9C && t.readWord .pc == 0x0001 && t.total == 4) = true := by decide

/-- H1: LD A,(nn), low byte first (R114). -/
theorem test_h1_ld_A_atnn :
    answers (step (stateWith RegFile.zero
      (m1 [(0, 0x3A), (1, 0x34), (2, 0x12), (0x1234, 0x42)])))
      (fun t => t.readByte .a == 0x42) = true := by decide

/-- H6: LD (nn),A stores one byte (R115). -/
theorem test_h6_ld_atnn_A :
    answers (step (stateWith { RegFile.zero with af := 0x5A00 }
      (m1 [(0, 0x32), (2, 0x10), (0x1001, 0x11)])))
      (fun t => t.bus.read 0x1000 == 0x5A && t.bus.read 0x1001 == 0x11 && t.total == 4) = true := by decide

/-- H8: LD (nn),A over its own operand (R115). -/
theorem test_h8_ld_atnn_A :
    answers (step (stateWith { RegFile.zero with af := 0xAA00, pc := 0x0200 }
      (m1 [(0x0200, 0x32), (0x0201, 0x01), (0x0202, 0x02)])))
      (fun t => t.bus.read 0x0201 == 0xAA && t.readWord .pc == 0x0203) = true := by decide

/-- I2: LD A,I keeps C and bits 5 and 3, clears the rest (R116). -/
theorem test_i2_ld_A_I :
    answers (step (stateWith { RegFile.zero with af := 0x00FF, ir := 0x7F00 }
      (m1 [(0, 0xED), (1, 0x57)])))
      (fun t => t.readWord .af == 0x7F29 && t.readWord .pc == 0x0002 && t.total == 2) = true := by decide

/-- I4: LD A,I copies iff2 to PV and does not read iff1 (R116, C-flag kept clear). -/
theorem test_i4_ld_A_I :
    answers (step ((stateWith RegFile.zero (m1 [(0, 0xED), (1, 0x57)])).setIff1 true))
      (fun t => t.readWord .af == 0x0040 && t.iff1) = true := by decide

/-- I7: LD A,R with iff2 true (R117). -/
theorem test_i7_ld_A_R :
    answers (step ((stateWith { RegFile.zero with af := 0x0028, ir := 0x0001 } (m1 [(0, 0xED), (1, 0x5F)])).setIff2 true))
      (fun t => t.readWord .af == 0x012C && t.readByte .r == 0x01 && t.iff2) = true := by decide

/-- I5: LD A,R with R = 0 (R117). -/
theorem test_i5_ld_A_R :
    answers (step (stateWith { RegFile.zero with af := 0x00FF }
      (m1 [(0, 0xED), (1, 0x5F)])))
      (fun t => t.readWord .af == 0x0069 && t.total == 2) = true := by decide

/-- J2, J6: a refused encoding names its bytes and leaves no state (R82, R96). -/
theorem test_j2_j6_refused :
    refusesWith (step (stateWith RegFile.zero (m1 [(0, 0x76)]))) (.unadmittedOpcode [0x76]) = true ∧
    refusesWith (step (stateWith RegFile.zero (m1 [(0, 0xDD), (1, 0xDD), (2, 0x7E)])))
      (.unadmittedOpcode [0xDD, 0xDD]) = true := by decide

/-- R119: a fetch, an operand and a data access at an uncovered address fault; a ROM write does not. -/
theorem test_fault_on_unmapped :
    faultsWith (step (strictState { RegFile.zero with pc := 0x8000 } (m2 []))) (.unmappedAccess 0x8000) = true ∧
    faultsWith (step (strictState { RegFile.zero with pc := 0x7FFF } (m2 [(0x7FFF, 0x0E)])))
      (.unmappedAccess 0x8000) = true ∧
    faultsWith (step (strictState { RegFile.zero with hl := 0xC000 } (m2 [(0, 0x77)])))
      (.unmappedAccess 0xC000) = true ∧
    answers (step (strictState { RegFile.zero with hl := 0xC000 } (m0 [(0, 0x77)] []))) (fun _ => true) = true := by
  decide

/-- A session whose DISPATCH has LD B,C under two opcodes, each with its own cost, and LD B,D under a third. -/
def sessionState (opcode : Byte) : State :=
  { stateWith { RegFile.zero with bc := 0x0034 } (m1 (Memory.set [] 0 opcode)) with
    params := ⟨false, false, [([0x01], 9), ([0x00], 7)],
      .custom [([0x00], Instr.ld_B_C), ([0x01], Instr.ld_B_C), ([0x02], Instr.ld_B_D)]⟩ }

/-- CYCLES and DISPATCH are the session's, by opcode bytes: two entries of one instruction cost 7 and 9, and an entry
with no declared cost has its form's default 1 (R8, R80, R92, R100). -/
theorem test_session_tables :
    answers (step (sessionState 0x00)) (fun t => t.readByte .b == 0x34 && t.total == 7) = true ∧
    answers (step (sessionState 0x01)) (fun t => t.readByte .b == 0x34 && t.total == 9) = true ∧
    answers (step (sessionState 0x02)) (fun t => t.readByte .b == 0x00 && t.total == 1) = true := by decide

/-- A table word placed at PC after reset runs as the first instruction (log 14). -/
theorem test_fetch_word :
    answers (step (State.reset.withFetchWord 8 0x3A)) (fun t => t.readByte .a == 0x3A && t.readWord .pc == 3) = true ∧
    answers (step (State.reset.withFetchWord 16 0xED57)) (fun t => t.getFlag .z && t.readWord .pc == 2) = true := by
  decide

/-! ### Witnesses: a concrete state and operands that meet each statement's hypotheses -/

/-- A RAM of one byte, for the smallest coverings. -/
def ramAt (a : Nat) (b : Byte) : Component := ⟨.ram, a, a + 1, Memory.set [] 0 b⟩

/-- A state with FAULT_ON_UNMAPPED whose Bus is the overlapping one of A8, with an instruction at 0. -/
def witnessState : State :=
  strictState
    { RegFile.zero with af := 0x4100, bc := 0x8010, de := 0xFFFF, hl := 0x0001, ix := 0x0005, iy := 0xFFF0, ir := 0x8001 }
    (overlap [(0, 0x77)])

theorem witness_inv : witnessState.Inv := ⟨by decide, by decide, by decide⟩

theorem witness_BuiltRamReadsZero :
    (0 ≤ 65536 ∧ 65536 ≤ 65536) ∧ (0x100 ≤ 0x100 ∧ 0x100 ≤ 65536) ∧
    Component.acceptRead ⟨.ram, 0, 65536, []⟩ 0xFFFF = true := by decide

theorem witness_BuiltRomReadsItsImage :
    0x8000 ≤ 0x8002 ∧ 0x8002 ≤ 65536 ∧ ([0x06, 0x2A] : List Byte).length = 0x8002 - 0x8000 ∧
    ([0x06, 0x2A] : List Byte)[1]? = some 0x2A ∧ ([] : List Byte).length = 65536 - 65536 := by decide

/-- The launch of the boot witnesses: RAM below 0x8000, a ROM of two bytes above it, single ownership asked. -/
def bootLaunch : Launch :=
  launchOf [.ram 0 0x8000, .rom 0x8000 0x8002 [0x06, 0x2A]] { Params.default with strictSingleOwner := true }

theorem witness_BootedStateSatisfiesInvariant :
    (∃ s, boot bootLaunch = .next s) ∧
    bootLaunch.components[1]? = some (.rom 0x8000 0x8002 [0x06, 0x2A]) := ⟨⟨_, rfl⟩, rfl⟩

theorem witness_ByteWriteChangesOnlyItsHalf : ByteReg.f ≠ ByteReg.a ∧ RegCell.bc ≠ ByteReg.a.cell := by decide

theorem witness_CellsAndFlipFlopsAreIndependent : RegCell.afAlt ≠ WordReg.af.cell := by decide

theorem witness_StepAdvancesPC : RegCell.sp ≠ RegCell.pc := by decide

theorem witness_FlagOperations : 5 < 8 ∧ 5 ≠ Flag.c.bit ∧ ByteReg.a ≠ ByteReg.f := by decide

theorem witness_BusWriteReachesEveryAcceptingComponent :
    Bus.wf (overlap []) = true ∧ (overlap [])[0]? = some ⟨.ram, 0, 65536, []⟩ ∧
    Component.acceptWrite ⟨.ram, 0, 65536, []⟩ 0xFFFF = true ∧
    Component.acceptWrite ⟨.rom, 0x8000, 0x8100, [(0x10, 0x0F)]⟩ 0x8010 = false := by decide

theorem witness_ReadAfterWrite :
    Bus.wf (overlap []) = true ∧ Bus.writable (overlap []) 0x8010 = true ∧ Bus.romByte (overlap []) 0x8010 = 0x0F ∧
    Bus.wf (m0 [] []) = true ∧ Bus.writable (m0 [] []) 0x8000 = false ∧ (0x8000 : Word) ≠ 0x7FFF := by decide

theorem witness_WordWriteIsTwoByteWrites :
    Bus.wf (m1 []) = true ∧ Bus.writable (m1 []) 0xFFFF = true ∧ Bus.writable (m1 []) (0xFFFF + 1) = true ∧
    Bus.romByte (m1 []) 0xFFFF = 0 ∧ Bus.romByte (m1 []) (0xFFFF + 1) = 0 ∧
    (1 : Word) ≠ 0xFFFF ∧ (1 : Word) ≠ 0xFFFF + 1 := by decide

theorem witness_UncoveredReadsZeroAndDropsWrites :
    Bus.covers (m2 []) 0x8000 = false ∧ Bus.writable (m0 [] []) 0x8000 = false ∧
    Bus.covers (m0 [] []) 0x8000 = true := by decide

theorem witness_RomWritesAreIdempotent : Bus.writable (m0 [] [(0, 0xC9)]) 0x8000 = false := by decide

theorem witness_ComponentOrderChangesNoResult :
    List.Perm (overlap []) [⟨.rom, 0x8000, 0x8100, [(0x10, 0x0F)]⟩, ⟨.ram, 0, 65536, []⟩] := by decide

theorem witness_DecodeOfEncode :
    Asm.wf ⟨Instr.ld_A_A, .none⟩ = true ∧ Asm.wf ⟨Instr.ld_H_n, .imm 0xFF⟩ = true ∧
    Asm.wf ⟨Instr.ld_atnn_A, .addr 0xFFFF⟩ = true ∧ Asm.wf ⟨Instr.ld_A_R, .none⟩ = true ∧
    Asm.wf ⟨Instr.ld_L_atIY, .disp 0x80⟩ = true ∧ Asm.wf ⟨Instr.ld_atIY_n, .dispImm 0x80 0xFF⟩ = true := by decide

theorem witness_EncodeOfDecode :
    decode [0xFD, 0x36, 0x80, 0xFF, 0x00] = .ok (⟨Instr.ld_atIY_n, .dispImm 0x80 0xFF⟩, [0x00]) := by decide

theorem witness_DispatchTableAndLengths : Asm.wf ⟨Instr.ld_atIX_n, .dispImm 0x7F 0⟩ = true := by decide

theorem witness_UnadmittedEncodingsAreRefused : (0x58 : Byte) ≠ 0x57 ∧ (0x58 : Byte) ≠ 0x5F := by decide

/-- The smallest covering of one step of an unprefixed opcode: its byte at 0xFFFF alone. -/
def oneByteState : State := strictState { RegFile.zero with pc := 0xFFFF } [ramAt 0xFFFF 0x41]

/-- The smallest covering of one step of a prefixed opcode, wrapping. -/
def twoByteState : State := strictState { RegFile.zero with pc := 0xFFFF } [ramAt 0xFFFF 0xED, ramAt 0 0x5F]

theorem witness_StepRunsTheDecodedInstruction :
    (decode [oneByteState.instrByte 0, oneByteState.instrByte 1, oneByteState.instrByte 2, oneByteState.instrByte 3] =
      .ok (⟨Instr.ld_B_C, .none⟩, [0, 0, 0])) ∧
    oneByteState.params.dispatch = .standard ∧ oneByteState.canFetch := by decide

theorem witness_StepRunsTheDecodedInstruction_prefixed :
    (decode [twoByteState.instrByte 0, twoByteState.instrByte 1, twoByteState.instrByte 2, twoByteState.instrByte 3] =
      .ok (⟨Instr.ld_A_R, .none⟩, [0, 0])) ∧
    twoByteState.params.dispatch = .standard ∧ twoByteState.canFetch := by decide

/-- Found: `twoByteState`. Not found: the reset state, whose memory is zero. -/
theorem witness_StepResolvesOrRefuses :
    twoByteState.canFetch ∧ isDecodedPrefix (twoByteState.instrByte 0) = true ∧
    dispatchLookup twoByteState.params.dispatch [twoByteState.instrByte 0, twoByteState.instrByte 1] =
      some Instr.ld_A_R ∧
    State.reset.canFetch ∧ isDecodedPrefix (State.reset.instrByte 0) = false ∧
    dispatchLookup State.reset.params.dispatch [State.reset.instrByte 0] = none := by decide

/-- One state for each clause: nothing at PC; a prefix at the last covered byte. -/
theorem witness_UncoveredFetchFaults :
    (let s := strictState { RegFile.zero with pc := 0x8000 } (m2 [])
     s.params.faultOnUnmapped = true ∧ s.bus.covers (s.readWord .pc) = false) ∧
    (let s := strictState { RegFile.zero with pc := 0x7FFF } (m2 [(0x7FFF, 0xDD)])
     s.params.faultOnUnmapped = true ∧ s.bus.covers (s.readWord .pc) = true ∧
       isDecodedPrefix (s.instrByte 0) = true ∧ s.bus.covers (s.readWord .pc + 1) = false) := by decide

/-- The fault is at the first uncovered access: here the second of the operand bytes of LD (IX+d),n. -/
theorem witness_ExecFaultsExactlyOnUncoveredAccess :
    let s := strictState { RegFile.zero with pc := 0x7FFD } (m2 [])
    s.params.faultOnUnmapped = true ∧
      (accesses .ld_atIX_n s).find? (fun a => !s.bus.covers a) = some 0x8000 := by decide

theorem witness_NothingFaultsByDefault : State.reset.params.faultOnUnmapped = false := rfl

/-- Also meets `PCAdvancesByTheLength` and `OnlyVectorLoadsWriteF`. -/
theorem witness_execAnswersNext :
    (∃ t, exec .ld_atHL_A witnessState = .next t) ∧ Instr.ld_atHL_A ≠ .ld_A_I ∧ Instr.ld_atHL_A ≠ .ld_A_R :=
  ⟨⟨_, rfl⟩, by decide, by decide⟩

/-- Two entries of one instruction, the second declared behind another, and an entry with no declared cost. -/
theorem witness_TotalGrowsByTheCost :
    ((∃ t, step (sessionState 0x00) = .next t) ∧
      (sessionState 0x00).params.cycleOverrides = [([0x01], 9)] ++ ((sessionState 0x00).opcodeBytes, 7) :: [] ∧
      ∀ m, ((sessionState 0x00).opcodeBytes, m) ∉ [(([0x01] : List Byte), 9)]) ∧
    ((∃ t, step (sessionState 0x01) = .next t) ∧
      (sessionState 0x01).params.cycleOverrides = [] ++ ((sessionState 0x01).opcodeBytes, 9) :: [([0x00], 7)]) ∧
    ((∃ t, step (sessionState 0x02) = .next t) ∧
      ∀ n, ((sessionState 0x02).opcodeBytes, n) ∉ (sessionState 0x02).params.cycleOverrides) := by
  have h0 : (sessionState 0x00).opcodeBytes = [0x00] := by decide
  have h2 : (sessionState 0x02).opcodeBytes = [0x02] := by decide
  refine ⟨⟨⟨_, rfl⟩, by decide, fun m h => ?_⟩, ⟨⟨_, rfl⟩, by decide⟩, ⟨_, rfl⟩, fun n h => ?_⟩
  · rw [h0] at h; simp at h
  · rw [h2] at h; simp [sessionState] at h

theorem witness_NoStepWritesTheSpecialRegisters : ∃ t, step witnessState = .next t := ⟨_, rfl⟩

theorem witness_StepKeepsInvariant : witnessState.Inv ∧ ∃ t, step witnessState = .next t :=
  ⟨witness_inv, ⟨_, rfl⟩⟩

theorem witness_RunsKeepInvariantAndRoms :
    ∃ t, runInputs [.instruction, .host (.busWriteWord 0x7FFF 0xABCD), .host (.setFlag .c true)] witnessState =
      .next t := ⟨_, rfl⟩

theorem witness_RunEndsAtFirstStop :
    runInputs [.instruction] State.reset = .refused (.unadmittedOpcode [0x00]) ∧
    runInputs [.instruction] (strictState { RegFile.zero with pc := 0x8000 } (m2 [])) =
      .fault (.unmappedAccess 0x8000) ∧
    ∃ t, runInputs [.instruction] witnessState = .next t := ⟨rfl, rfl, ⟨_, rfl⟩⟩

theorem witness_HostActionsReadAndWriteTheState :
    HostAction.readIff1 ∈ [HostAction.readIff1, HostAction.readIff2] := by decide

theorem witness_CostsInfluenceNoState :
    SameButCycles (sessionState 0x00)
      { sessionState 0x00 with total := 5, params := { (sessionState 0x00).params with cycleOverrides := [] } } :=
  ⟨rfl, rfl, rfl, rfl, rfl, rfl, rfl⟩

theorem witness_ShadowsSPAndIff1AreNeverRead :
    RegCell.sp ∈ [RegCell.afAlt, .bcAlt, .deAlt, .hlAlt, .sp] ∧ (∃ t, step witnessState = .next t) ∧
    step State.reset = .refused (.unadmittedOpcode [0x00]) ∧
    step (strictState { RegFile.zero with pc := 0x8000 } (m2 [])) = .fault (.unmappedAccess 0x8000) :=
  ⟨by decide, ⟨_, rfl⟩, rfl, rfl⟩

/-- F5: LD (HL),A writes 0x41 over the next opcode. -/
def storeState : State := stateWith { RegFile.zero with af := 0x4100, hl := 0x0001 } (m1 [(0, 0x77)])

theorem witness_StoreIntoNextOpcodeIsFetched :
    storeState.Inv ∧ storeState.params.dispatch = .standard ∧ storeState.params.faultOnUnmapped = false ∧
    storeState.instrByte 0 = 0x77 ∧ storeState.readWord .hl = storeState.readWord .pc + 1 ∧
    storeState.bus.writable (storeState.readWord .hl) = true ∧
    storeState.bus.romByte (storeState.readWord .hl) = 0 ∧
    Instr.ld_B_C.opcode = [storeState.readByte .a] ∧ ∃ t, step storeState = .next t :=
  ⟨⟨by decide, by decide, by decide⟩, by decide, by decide, by decide, by decide, by decide, by decide, by decide,
    ⟨_, rfl⟩⟩

/-- A state whose PC no component covers: M2 with PC at the top of memory. -/
theorem witness_FetchWordRunsTheTableInstruction :
    let s := stateWith { RegFile.zero with pc := 0xFFFE } (m2 [])
    s.Inv ∧ s.params.dispatch = .standard ∧ decodeTableWord 16 0xFD36 = some Instr.ld_atIY_n :=
  ⟨⟨by decide, by decide, by decide⟩, by decide, by decide⟩

/-- LD r,n: only the operand byte, at 0x0000 behind PC = 0xFFFF, is covered. -/
theorem witness_LdRegisterImmediate :
    let s := strictState { RegFile.zero with pc := 0xFFFF } [ramAt 0 0x99]
    s.canAccess (s.readWord .pc + 1) = true := by decide

/-- LD r,(HL), LD A,(BC), LD A,(DE): only the data byte is covered. -/
theorem witness_LdRegisterFromHL_LdAFromBC_LdAFromDE :
    (let s := strictState { RegFile.zero with hl := 0xFFFF } [ramAt 0xFFFF 0x99]
     s.canAccess (s.readWord .hl) = true) ∧
    (let s := strictState { RegFile.zero with bc := 0xFFFF } [ramAt 0xFFFF 0x99]
     s.canAccess (s.readWord .bc) = true) ∧
    (let s := strictState { RegFile.zero with de := 0xFFFF } [ramAt 0xFFFF 0x99]
     s.canAccess (s.readWord .de) = true) := by decide

/-- LD r,(IX+d) and LD r,(IY+d) with d = −128 from 0x0000: the address wraps to 0xFF80. -/
theorem witness_LdRegisterFromIX_LdRegisterFromIY :
    let s := strictState RegFile.zero [ramAt 2 0x80, ramAt 0xFF80 0x99]
    s.canAccess (s.readWord .pc + 2) = true ∧
      s.canAccess (s.readWord .ix + (s.bus.read (s.readWord .pc + 2)).signExtend 16) = true ∧
      s.canAccess (s.readWord .iy + (s.bus.read (s.readWord .pc + 2)).signExtend 16) = true := by decide

/-- LD (HL),r, LD (BC),A, LD (DE),A and LD (HL),n: RAM and ROM overlap at BC. -/
theorem witness_StoreRegisterAtHL_StoreAAtBC_StoreAAtDE_StoreImmediateAtHL :
    witnessState.Inv ∧ witnessState.canAccess (witnessState.readWord .hl) = true ∧
    witnessState.canAccess (witnessState.readWord .bc) = true ∧
    witnessState.canAccess (witnessState.readWord .de) = true ∧
    witnessState.canAccess (witnessState.readWord .pc + 1) = true :=
  ⟨witness_inv, by decide, by decide, by decide, by decide⟩

/-- LD (IX+d),n and LD (IY+d),n: the operand bytes and the one data byte, and no more, are covered. -/
theorem witness_StoreImmediateAtIX_StoreImmediateAtIY :
    let s := strictState RegFile.zero [ramAt 2 0x80, ramAt 3 0x11, ramAt 0xFF80 0]
    s.Inv ∧ s.canAccess (s.readWord .pc + 2) = true ∧ s.canAccess (s.readWord .pc + 3) = true ∧
      s.canAccess (s.readWord .ix + (s.bus.read (s.readWord .pc + 2)).signExtend 16) = true ∧
      s.canAccess (s.readWord .iy + (s.bus.read (s.readWord .pc + 2)).signExtend 16) = true :=
  ⟨⟨by decide, by decide, by decide⟩, by decide, by decide, by decide, by decide⟩

/-- LD A,(nn) and LD (nn),A: the operand bytes and the one data byte, and no more, are covered. -/
theorem witness_LdAFromDirect_StoreAAtDirect :
    let s := strictState { RegFile.zero with pc := 0xFFFE } [ramAt 0xFFFF 0x00, ramAt 0 0x20, ramAt 0x2000 0]
    s.Inv ∧ s.canAccess (s.readWord .pc + 1) = true ∧ s.canAccess (s.readWord .pc + 2) = true ∧
      s.canAccess (s.bus.readWord (s.readWord .pc + 1)) = true :=
  ⟨⟨by decide, by decide, by decide⟩, by decide, by decide, by decide⟩

/-- Both sides of the boot statement: an admitted launch, and one of each kind that is not. -/
theorem witness_BootSucceedsExactlyOnAdmittedBus :
    (let l := bootLaunch
     (∀ spec ∈ l.components, SpecAdmitted spec) ∧
       (l.params.strictSingleOwner = true → l.components.Pairwise SpecsDisjoint) ∧ l.params.dispatch.wf = true) ∧
    ¬ SpecAdmitted (.ram 0x9000 0x8000) ∧ ¬ SpecsDisjoint (.ram 0 65536) (.rom 0x8000 0x8001 [0x0F]) := by
  refine ⟨⟨?_, fun _ => ?_, rfl⟩, by simp [SpecAdmitted], ?_⟩
  · intro spec h
    simp [bootLaunch, launchOf] at h
    rcases h with rfl | rfl <;> simp [SpecAdmitted]
  · simp only [bootLaunch, launchOf, List.pairwise_cons, List.mem_singleton, forall_eq, List.not_mem_nil, false_implies,
      implies_true, List.Pairwise.nil, and_true]
    intro a h
    simp [specStart, specStop] at h
    omega
  · intro h
    exact h 0x8000 (by simp [specStart, specStop])

end Sys2Proof.Tests
end

section
/-! What an invoked entry answers and what a step adds to T (40_engine.md R87, R88, R92 to R94, R100). -/

namespace Sys2Proof.Machine

/-! ### The instruction leaves T alone -/

@[simp] theorem afterLoad_total (s : State) (len dest v) : (afterLoad s len dest v).total = s.total := rfl

@[simp] theorem afterStore_total (s : State) (len a v) : (afterStore s len a v).total = s.total := rfl

@[simp] theorem afterVector_total (s : State) (v) : (afterVector s v).total = s.total := by simp [afterVector]

@[simp] theorem afterForm_total (s : State) (f : Form) : (afterForm s f).total = s.total := by
  obtain ⟨_, _, -, h⟩ | ⟨_, _, -, h⟩ | ⟨_, -, -, -, h⟩ := afterForm_cases s f
  · rw [h, afterLoad_total]
  · rw [h, afterStore_total]
  · rw [h, afterVector_total]

/-- T belongs to the host's loop: no instruction's own effect changes it (R94). -/
theorem exec_total {i : Instr} {s t : State} (h : exec i s = .next t) : t.total = s.total := by
  obtain ⟨rfl, -⟩ := exec_next h
  exact afterForm_total s i.form

/-! ### The cost of an opcode's bytes -/

theorem invoke_eq_next_iff (e : DispatchEntry) (s t : State) (n : Nat) :
    invoke e s = .next (t, n) ↔ exec e.instr s = .next t ∧ n = e.cycles := by
  unfold invoke
  cases exec e.instr s with
  | next u => simp [eq_comm]
  | fault f => simp
  | refused q => simp

theorem bne_key_of_not_declared {table : List (List Byte × Nat)} {op : List Byte} (h : ∀ n, (op, n) ∉ table) :
    ∀ row ∈ table, (op != row.1) = true := by
  rintro ⟨key, n⟩ hmem
  exact bne_iff_ne.2 fun hkey => h n (by rwa [hkey])

/-- The first cost the session's table declares for an opcode's bytes is the one that counts (R93, log 10). -/
theorem cycleCost_of_first_override {p : Params} {op : List Byte} {before rest : List (List Byte × Nat)} {n : Nat}
    (h : p.cycleOverrides = before ++ (op, n) :: rest) (hfirst : ∀ m, (op, m) ∉ before) (i : Instr) :
    cycleCost p op i = n := by
  have hlookup : p.cycleOverrides.lookup op = some n :=
    List.lookup_eq_some_iff.2 ⟨before, rest, h, bne_key_of_not_declared hfirst⟩
  rw [cycleCost, hlookup, Option.getD_some]

/-- Where the session's table declares no cost for an opcode's bytes, its form's default counts (R93). -/
theorem cycleCost_of_no_override {p : Params} {op : List Byte} (h : ∀ n, (op, n) ∉ p.cycleOverrides) (i : Instr) :
    cycleCost p op i = defaultCycles i.form := by
  have hlookup : p.cycleOverrides.lookup op = none := List.lookup_eq_none_iff.2 (bne_key_of_not_declared h)
  rw [cycleCost, hlookup, Option.getD_none]

/-- The cost of the opcode's bytes is all that a completed step adds to T (R94, R100). -/
theorem step_total {s t : State} (h : step s = .next t) :
    ∃ i, dispatchLookup s.params.dispatch s.opcodeBytes = some i ∧
      t.total = s.total + cycleCost s.params s.opcodeBytes i := by
  obtain ⟨i, u, hi, hu, rfl⟩ := step_next h
  exact ⟨i, hi, by rw [State.addCycles_total, exec_total hu]⟩

/-- Settles O32: the entry's cost is returned unchanged, the instruction leaves T alone, and the table is searched
for the opcode's bytes from its front. -/
theorem totalGrowsByTheCost : Obligations.TotalGrowsByTheCost := by
  refine ⟨fun e s t n => invoke_eq_next_iff e s t n, fun s t h => ?_⟩
  obtain ⟨i, hi, htotal⟩ := step_total h
  refine ⟨i, hi, fun before n rest htable hfirst => ?_, fun hnone => ?_⟩
  · rw [htotal, cycleCost_of_first_override htable hfirst]
  · rw [htotal, cycleCost_of_no_override hnone]

end Sys2Proof.Machine
end

section
/-! The register file, the flag register and the PC step (10_state.md R15 to R21, R26, R27, R30 to R34, R37, R38). -/

namespace Sys2Proof.Machine

/-! ### The halves of a cell -/

/-- `hi` and `lo` name the high and the low half of the cell `c` (R17). -/
structure ByteReg.Halves (hi lo : ByteReg) (c : RegCell) : Prop where
  cellHigh : hi.cell = c
  cellLow : lo.cell = c
  high : hi.isHigh = true
  low : lo.isHigh = false

theorem ByteReg.halves_af : ByteReg.Halves .a .f .af := ⟨rfl, rfl, rfl, rfl⟩
theorem ByteReg.halves_bc : ByteReg.Halves .b .c .bc := ⟨rfl, rfl, rfl, rfl⟩
theorem ByteReg.halves_de : ByteReg.Halves .d .e .de := ⟨rfl, rfl, rfl, rfl⟩
theorem ByteReg.halves_hl : ByteReg.Halves .h .l .hl := ⟨rfl, rfl, rfl, rfl⟩
theorem ByteReg.halves_ir : ByteReg.Halves .i .r .ir := ⟨rfl, rfl, rfl, rfl⟩

theorem ByteReg.Halves.ne {hi lo : ByteReg} {c : RegCell} (h : ByteReg.Halves hi lo c) : hi ≠ lo := by
  rintro rfl
  exact Bool.false_ne_true (h.low.symm.trans h.high)

/-- A cell holds the concatenation of its halves (R18). -/
theorem ByteReg.Halves.cell_eq {hi lo : ByteReg} {c : RegCell} (h : ByteReg.Halves hi lo c) (s : State) :
    s.regs.cell c = s.readByte hi ++ s.readByte lo := by
  rw [s.readByte_high h.high, s.readByte_low h.low, h.cellHigh, h.cellLow, ← wordOf_eq_append, wordOf_halves]

/-- A word is `high*256 + low` of its halves (R18). -/
theorem ByteReg.Halves.toNat_cell {hi lo : ByteReg} {c : RegCell} (h : ByteReg.Halves hi lo c) (s : State) :
    (s.regs.cell c).toNat = (s.readByte hi).toNat * 256 + (s.readByte lo).toNat := by
  rw [h.cell_eq, ← wordOf_eq_append, toNat_wordOf]

/-- A word write is read back by halves: `v[15:8]` and `v[7:0]` (R20, R21). -/
theorem ByteReg.Halves.readByte_writeWord {hi lo : ByteReg} {w : WordReg} (h : ByteReg.Halves hi lo w.cell)
    (s : State) (v : Word) :
    (s.writeWord w v).readByte hi = v.extractLsb' 8 8 ∧ (s.writeWord w v).readByte lo = v.extractLsb' 0 8 := by
  constructor
  · rw [State.readByte_high _ h.high, h.cellHigh, State.writeWord, State.setCell_regs, RegFile.cell_setCell_same,
      hiByte_eq_extract]
  · rw [State.readByte_low _ h.low, h.cellLow, State.writeWord, State.setCell_regs, RegFile.cell_setCell_same,
      loByte_eq_extract]

/-- Writing both halves rebuilds the word (R21). -/
theorem ByteReg.Halves.readWord_writeBytes {hi lo : ByteReg} {w : WordReg} (h : ByteReg.Halves hi lo w.cell)
    (s : State) (x y : Byte) : ((s.writeByte hi x).writeByte lo y).readWord w = x ++ y := by
  rw [State.readWord, h.cell_eq, State.readByte_writeByte_ne _ _ h.ne, State.readByte_writeByte_same,
    State.readByte_writeByte_same]

/-- Settles O6: one law for each pair of halves, used at AF, BC, DE, HL and IR. -/
theorem selectorsReadBack : Obligations.SelectorsReadBack := fun s =>
  ⟨s.readWord_writeWord_same, s.readByte_writeByte_same,
    ByteReg.halves_af.readByte_writeWord (w := .af) s, ByteReg.halves_bc.readByte_writeWord (w := .bc) s,
    ByteReg.halves_de.readByte_writeWord (w := .de) s, ByteReg.halves_hl.readByte_writeWord (w := .hl) s,
    fun hi lo =>
      ⟨ByteReg.halves_af.readWord_writeBytes (w := .af) s hi lo,
        ByteReg.halves_bc.readWord_writeBytes (w := .bc) s hi lo,
        ByteReg.halves_de.readWord_writeBytes (w := .de) s hi lo,
        ByteReg.halves_hl.readWord_writeBytes (w := .hl) s hi lo⟩,
    ByteReg.halves_af.toNat_cell s, ByteReg.halves_bc.toNat_cell s, ByteReg.halves_de.toNat_cell s,
    ByteReg.halves_hl.toNat_cell s, ByteReg.halves_ir.toNat_cell s⟩

/-! ### Cells and flip-flops -/

/-- Writes of two cells commute (R15). -/
theorem RegFile.setCell_comm (f : RegFile) {c c' : RegCell} (h : c' ≠ c) (v v' : Word) :
    (f.setCell c v).setCell c' v' = (f.setCell c' v').setCell c v := by
  refine RegFile.ext_cell fun k => ?_
  simp only [RegFile.cell_setCell]
  by_cases hk : k = c
  · simp [hk, h.symm]
  · simp [hk]

theorem State.cell_writeWord_ne (s : State) (w : WordReg) (v : Word) {c : RegCell} (h : c ≠ w.cell) :
    (s.writeWord w v).regs.cell c = s.regs.cell c := RegFile.cell_setCell_ne _ _ h

theorem State.cell_writeByte_ne (s : State) (x : ByteReg) (v : Byte) {c : RegCell} (h : c ≠ x.cell) :
    (s.writeByte x v).regs.cell c = s.regs.cell c := RegFile.cell_setCell_ne _ _ h

/-- Settles O7: the other half by the selectors' laws, the other cells by the register file's. -/
theorem byteWriteChangesOnlyItsHalf : Obligations.ByteWriteChangesOnlyItsHalf := fun s sel v =>
  ⟨s.readByte_writeByte_same sel v, fun _ h => s.readByte_writeByte_ne v h, fun _ h => s.cell_writeByte_ne sel v h,
    s.writeByte_iff1 sel v, s.writeByte_iff2 sel v, s.writeByte_bus sel v, s.writeByte_total sel v,
    s.writeByte_params sel v⟩

/-- Settles O8: a word write is a write of one cell, and a flip-flop is a field of its own. -/
theorem cellsAndFlipFlopsAreIndependent : Obligations.CellsAndFlipFlopsAreIndependent := fun s w v x =>
  ⟨fun _ h => s.cell_writeWord_ne w v h, s.writeWord_iff1 w v, s.writeWord_iff2 w v, s.writeWord_bus w v,
    s.setIff1_iff1 x, s.setIff1_iff2 x, s.setIff1_regs x, s.setIff2_iff2 x, s.setIff2_iff1 x, s.setIff2_regs x⟩

/-- Settles O9: the PC step is a word write of PC, and Word addition wraps. -/
theorem stepAdvancesPC : Obligations.StepAdvancesPC := by
  intro s n
  refine ⟨s.stepPC_fst n, ?_, ?_, ?_⟩
  · rw [State.stepPC_snd, State.readWord_writeWord_same, BitVec.toNat_add]
  · intro c h
    rw [State.stepPC_snd, State.cell_writeWord_ne _ _ _ h]
  · simp

/-! ### The flag operations -/

theorem Flag.bit_lt (f : Flag) : f.bit < 8 := by cases f <;> decide

@[simp] theorem State.getFlag_enableFlag_same (s : State) (f : Flag) : (s.enableFlag f).getFlag f = true :=
  s.getFlag_putFlag_same f true

@[simp] theorem State.getFlag_disableFlag_same (s : State) (f : Flag) : (s.disableFlag f).getFlag f = false :=
  s.getFlag_putFlag_same f false

/-- A flag write keeps every other bit of F, the two that belong to no flag among them (R10, R28). -/
theorem State.readF_putFlag_ne (s : State) (f : Flag) (v : Bool) {k : Nat} (hk : k < 8) (h : k ≠ f.bit) :
    ((s.putFlag f v).readByte .f).getLsbD k = (s.readByte .f).getLsbD k := by
  rw [s.readF_putFlag f v k hk, if_neg h]

@[simp] theorem State.readF_clearFlags (s : State) : s.clearFlags.readByte .f = 0 := s.readByte_writeByte_same .f 0

@[simp] theorem State.getFlag_clearFlags (s : State) (f : Flag) : s.clearFlags.getFlag f = false := by
  rw [State.getFlag, State.readF_clearFlags, BitVec.ofNat_eq_ofNat, BitVec.getLsbD_zero]

/-- F is the low byte of AF (R17, R27). -/
theorem State.getLsbD_readF (s : State) {k : Nat} (hk : k < 8) :
    (s.readByte .f).getLsbD k = (s.readWord .af).getLsbD k := by
  have hAF : s.readWord .af = s.readByte .a ++ s.readByte .f := ByteReg.halves_af.cell_eq s
  rw [hAF, BitVec.getLsbD_append, if_pos hk]

/-- Settles O10: enable and disable are one flag write with either value, and each of the three writes F only. -/
theorem flagOperations : Obligations.FlagOperations := fun s f =>
  ⟨s.getFlag_enableFlag_same f, s.getFlag_disableFlag_same f, ⟨rfl, rfl, rfl, rfl, rfl, rfl⟩,
    fun _ hk => s.getLsbD_readF hk,
    fun _ hk h => ⟨s.readF_putFlag_ne f true hk h, s.readF_putFlag_ne f false hk h⟩,
    onlyFWritten_writeF s _, onlyFWritten_writeF s _, onlyFWritten_writeF s _,
    s.readF_clearFlags, s.getFlag_clearFlags f⟩

theorem State.setFlagInverted_true (s : State) (f : Flag) : s.setFlagInverted f true = s.disableFlag f := rfl

theorem State.setFlagInverted_false (s : State) (f : Flag) : s.setFlagInverted f false = s.enableFlag f := rfl

@[simp] theorem State.getFlag_setFlagInverted_same (s : State) (f : Flag) (x : Bool) :
    (s.setFlagInverted f x).getFlag f = !x := s.getFlag_putFlag_same f (!x)

/-- Settles O11: the host's set is a flag write of the negated value. -/
theorem setFlagIsInverted : Obligations.SetFlagIsInverted := fun s f =>
  ⟨s.setFlagInverted_true f, s.setFlagInverted_false f, s.getFlag_setFlagInverted_same f true,
    s.getFlag_setFlagInverted_same f false⟩

/-! ### The host's actions -/

/-- Settles O59: each reply is a read of the state the action left, and each such read is one of the laws above. -/
theorem hostActionsReadAndWriteTheState : Obligations.HostActionsReadAndWriteTheState := by
  intro s
  refine ⟨fun w v => ?word, fun sel v => ?byte, fun x => ⟨rfl, rfl⟩,
    fun f => ⟨?enable, ?disable, ?clear, fun x => ?set⟩, fun _ _ => rfl, fun _ _ => rfl, fun _ => ⟨rfl, rfl⟩,
    ?flipFlops, fun _ => rfl, fun _ => rfl, fun _ => rfl, fun _ => ⟨rfl, rfl⟩, rfl⟩
  case word => exact congrArg HostReply.word (s.readWord_writeWord_same w v)
  case byte => exact congrArg HostReply.byte (s.readByte_writeByte_same sel v)
  case enable => exact congrArg HostReply.bool (s.getFlag_enableFlag_same f)
  case disable => exact congrArg HostReply.bool (s.getFlag_disableFlag_same f)
  case clear => exact congrArg HostReply.bool (s.getFlag_clearFlags f)
  case set => exact congrArg HostReply.bool (s.getFlag_setFlagInverted_same f x)
  case flipFlops => simp [hostAct]

end Sys2Proof.Machine
end

section
/-! What a step never writes (10_state.md R22 to R25, R29, R35 to R37). -/

namespace Sys2Proof.Machine

/-! ### F -/

/-- A form that is no interrupt-vector load keeps F (R22, R29). -/
theorem readF_afterForm {f : Form} (hI : f ≠ .ldAI) (hR : f ≠ .ldAR) (s : State) :
    (afterForm s f).readByte .f = s.readByte .f := by
  obtain ⟨r, v, -, h⟩ | ⟨a, v, -, h⟩ | ⟨v, -, hf, -⟩ := afterForm_cases s f
  · rw [h]
    exact (loadEffect_afterLoad ..).otherBytes .f (byteRegOf_ne_f r).symm
  · simp [h, afterStore]
  · exact absurd hf (not_or.2 ⟨hI, hR⟩)

/-- Settles O33: an opcode other than the two is of a form other than the two, and such a form keeps F. -/
theorem onlyVectorLoadsWriteF : Obligations.OnlyVectorLoadsWriteF := by
  intro i s t hI hR h
  obtain ⟨rfl, -⟩ := exec_next h
  exact readF_afterForm (fun e => hI (Instr.form_injective e)) (fun e => hR (Instr.form_injective e)) s

/-! ### The cells no load's register lies in, and the flip-flops -/

theorem cell_afterLoad_ne (s : State) (len : Word) {dest : ByteReg} (v : Byte) {c : RegCell} (hpc : c ≠ .pc)
    (h : c ≠ dest.cell) : (afterLoad s len dest v).regs.cell c = s.regs.cell c := by
  rw [afterLoad, State.cell_writeByte_ne _ _ _ h, State.cell_writeWord_ne _ _ _ hpc]

theorem cell_afterStore_ne (s : State) (len a : Word) (v : Byte) {c : RegCell} (hpc : c ≠ .pc) :
    (afterStore s len a v).regs.cell c = s.regs.cell c := by
  rw [afterStore, State.cell_writeWord_ne _ _ _ hpc, State.withBus_regs]

theorem cell_afterVector_ne (s : State) (v : Byte) {c : RegCell} (hpc : c ≠ .pc) (haf : c ≠ .af) :
    (afterVector s v).regs.cell c = s.regs.cell c := by
  simp only [afterVector, State.putInterruptVectorFlags, State.cell_putFlag_ne _ _ _ haf]
  rw [State.cell_writeByte_ne _ .a _ haf, State.cell_writeWord_ne _ .pc _ hpc]

/-- A form writes no cell but PC and those of the registers a load names. -/
theorem cell_afterForm_ne (s : State) (f : Form) {c : RegCell} (hpc : c ≠ .pc) (h : ∀ r, c ≠ (byteRegOf r).cell) :
    (afterForm s f).regs.cell c = s.regs.cell c := by
  obtain ⟨r, v, -, e⟩ | ⟨a, v, -, e⟩ | ⟨v, -, -, -, e⟩ := afterForm_cases s f <;> rw [e]
  · exact cell_afterLoad_ne _ _ _ hpc (h r)
  · exact cell_afterStore_ne _ _ _ _ hpc
  · exact cell_afterVector_ne _ _ hpc (h .a)

theorem afterForm_flipFlops (s : State) (f : Form) :
    (afterForm s f).iff1 = s.iff1 ∧ (afterForm s f).iff2 = s.iff2 := by
  obtain ⟨r, v, -, e⟩ | ⟨a, v, -, e⟩ | ⟨v, -, -, -, e⟩ := afterForm_cases s f <;> rw [e]
  · exact ⟨rfl, rfl⟩
  · exact ⟨rfl, rfl⟩
  · have he := interruptVectorEffect_afterVector s v
    exact ⟨he.iff1, he.iff2⟩

/-- The shadow cells, the index registers, SP and IR: no load names a register in them. -/
def specialCells : List RegCell := [.afAlt, .bcAlt, .deAlt, .hlAlt, .ix, .iy, .sp, .ir]

theorem ne_pc_of_mem_specialCells : ∀ c ∈ specialCells, c ≠ .pc := by decide

theorem ne_cell_of_mem_specialCells (r : Reg8) : ∀ c ∈ specialCells, c ≠ (byteRegOf r).cell := by
  cases r <;> decide

/-- Settles O34: a completed step leaves its form's state with T advanced, and no form writes a special register. -/
theorem noStepWritesTheSpecialRegisters : Obligations.NoStepWritesTheSpecialRegisters := by
  intro s t h
  obtain ⟨i, u, -, hi, rfl⟩ := step_next h
  obtain ⟨rfl, -⟩ := exec_next hi
  refine ⟨fun c hc => ?_, afterForm_flipFlops s i.form⟩
  exact cell_afterForm_ne s i.form (ne_pc_of_mem_specialCells c hc) fun r => ne_cell_of_mem_specialCells r c hc

end Sys2Proof.Machine
end

section
/-! What a step never reads (10_state.md R23, R25, R37; 45_ld8_interrupt_vector.md R116): changing a cell no
instruction reads, and iff1, commutes with every operation a step is made of. -/

namespace Sys2Proof.Machine

/-! ### The change of the unread registers -/

/-- PC and the words an instruction takes a data address from (R61, R77, R91). -/
def addressWords : List WordReg := [.pc, .bc, .de, .hl, .ix, .iy]

/-- The cell is no byte register's and no address register's, so no instruction names it: a shadow cell or SP. -/
structure RegCell.Unread (c : RegCell) : Prop where
  bytes : ∀ x : ByteReg, x.cell ≠ c
  words : ∀ w ∈ addressWords, w.cell ≠ c

theorem RegCell.unread_of_mem {c : RegCell} (h : c ∈ [RegCell.afAlt, .bcAlt, .deAlt, .hlAlt, .sp]) : c.Unread where
  bytes x := by revert c; cases x <;> decide
  words := by revert c; decide

/-- `s` with `v` in the cell `c` and `x` in iff1. -/
def State.perturb (c : RegCell) (v : Word) (x : Bool) (s : State) : State := (s.setCell c v).setIff1 x

section
variable {c : RegCell} {v : Word} {x : Bool}

@[simp] theorem State.perturb_iff2 (s : State) : (s.perturb c v x).iff2 = s.iff2 := rfl
@[simp] theorem State.perturb_bus (s : State) : (s.perturb c v x).bus = s.bus := rfl
@[simp] theorem State.perturb_params (s : State) : (s.perturb c v x).params = s.params := rfl
@[simp] theorem State.canAccess_perturb (s : State) (a : Word) : (s.perturb c v x).canAccess a = s.canAccess a := rfl
@[simp] theorem State.withBus_perturb (s : State) (bus : Bus) :
    (s.perturb c v x).withBus bus = (s.withBus bus).perturb c v x := rfl

theorem State.cell_perturb_ne (s : State) {c' : RegCell} (h : c' ≠ c) :
    (s.perturb c v x).regs.cell c' = s.regs.cell c' := RegFile.cell_setCell_ne _ _ h

theorem State.setCell_perturb_ne (s : State) {c' : RegCell} (h : c' ≠ c) (v' : Word) :
    (s.perturb c v x).setCell c' v' = (s.setCell c' v').perturb c v x :=
  congrArg (fun f => { s with regs := f, iff1 := x }) (s.regs.setCell_comm h v v')

/-! ### What an instruction reads -/

section
variable (hc : c.Unread)
include hc

theorem State.readByte_perturb (s : State) (sel : ByteReg) : (s.perturb c v x).readByte sel = s.readByte sel := by
  rw [State.readByte, s.cell_perturb_ne (hc.bytes sel), State.readByte]

theorem State.readWord_perturb (s : State) {w : WordReg} (hw : w ∈ addressWords) :
    (s.perturb c v x).readWord w = s.readWord w := s.cell_perturb_ne (hc.words w hw)

theorem State.readPC_perturb (s : State) : (s.perturb c v x).readWord .pc = s.readWord .pc :=
  s.readWord_perturb hc (by decide)

theorem State.instrByte_perturb (s : State) (k : Word) : (s.perturb c v x).instrByte k = s.instrByte k := by
  rw [State.instrByte, s.readPC_perturb hc, State.perturb_bus, State.instrByte]

theorem State.directAddress_perturb (s : State) : (s.perturb c v x).directAddress = s.directAddress := by
  rw [State.directAddress, s.instrByte_perturb hc, s.instrByte_perturb hc, State.directAddress]

theorem State.indexedOperand_perturb (s : State) {w : WordReg} (hw : w ∈ addressWords) :
    (s.perturb c v x).indexedOperand w = s.indexedOperand w := by
  rw [State.indexedOperand, s.readWord_perturb hc hw, s.instrByte_perturb hc, State.indexedOperand]

theorem dataAddress_perturb (s : State) (f : Form) : dataAddress (s.perturb c v x) f = dataAddress s f := by
  cases f <;>
    simp (disch := decide) [dataAddress, s.readWord_perturb hc, s.indexedOperand_perturb hc, s.directAddress_perturb hc]

theorem accesses_perturb (s : State) (i : Instr) : accesses i (s.perturb c v x) = accesses i s := by
  rw [accesses, s.readPC_perturb hc, dataAddress_perturb hc, accesses]

/-! ### What an instruction leaves -/

theorem State.writePC_perturb (s : State) (v' : Word) :
    (s.perturb c v x).writeWord .pc v' = (s.writeWord .pc v').perturb c v x :=
  s.setCell_perturb_ne (hc.words .pc (by decide)) v'

theorem State.writeByte_perturb (s : State) (sel : ByteReg) (b : Byte) :
    (s.perturb c v x).writeByte sel b = (s.writeByte sel b).perturb c v x := by
  rw [State.writeByte, s.cell_perturb_ne (hc.bytes sel), s.setCell_perturb_ne (hc.bytes sel), State.writeByte]

theorem State.putFlag_perturb (s : State) (f : Flag) (b : Bool) :
    (s.perturb c v x).putFlag f b = (s.putFlag f b).perturb c v x := by
  simp only [State.putFlag, State.enableFlag, State.disableFlag, s.readByte_perturb hc, s.writeByte_perturb hc]
  cases b with
  | false => rfl
  | true => rfl

theorem afterLoad_perturb (s : State) (len : Word) (dest : ByteReg) (b : Byte) :
    afterLoad (s.perturb c v x) len dest b = (afterLoad s len dest b).perturb c v x := by
  rw [afterLoad, s.readPC_perturb hc, s.writePC_perturb hc, State.writeByte_perturb hc, afterLoad]

theorem afterStore_perturb (s : State) (len a : Word) (b : Byte) :
    afterStore (s.perturb c v x) len a b = (afterStore s len a b).perturb c v x := by
  rw [afterStore, s.readPC_perturb hc, State.withBus_perturb, State.writePC_perturb hc, State.perturb_bus, afterStore]

/-- The parity flag is iff2's, not iff1's (R116). -/
theorem afterVector_perturb (s : State) (b : Byte) :
    afterVector (s.perturb c v x) b = (afterVector s b).perturb c v x := by
  simp only [afterVector, State.putInterruptVectorFlags, s.readPC_perturb hc, State.writePC_perturb hc,
    State.writeByte_perturb hc, State.putFlag_perturb hc, State.perturb_iff2]

theorem afterForm_perturb (s : State) (f : Form) :
    afterForm (s.perturb c v x) f = (afterForm s f).perturb c v x := by
  cases f <;>
    simp (disch := decide) [afterForm, afterLoad_perturb hc, afterStore_perturb hc, afterVector_perturb hc,
      s.readByte_perturb hc, s.readWord_perturb hc, s.instrByte_perturb hc, s.indexedOperand_perturb hc,
      s.directAddress_perturb hc]

end

/-! ### Outcomes -/

/-- Changes the next state an outcome answers, and leaves a stop as it is. -/
def mapNext (g : State → State) : Result → Result
  | .next t => .next (g t)
  | .fault f => .fault f
  | .refused q => .refused q

@[simp] theorem mapNext_next (g : State → State) (t : State) : mapNext g (.next t) = .next (g t) := rfl
@[simp] theorem mapNext_fault (g : State → State) (f : Fault) : mapNext g (.fault f) = .fault f := rfl
@[simp] theorem mapNext_refused (g : State → State) (q : Refusal) : mapNext g (.refused q) = .refused q := rfl

theorem guarded_perturb (s t : State) (l : List Word) :
    guarded (s.perturb c v x) (t.perturb c v x) l = mapNext (State.perturb c v x) (guarded s t l) := by
  induction l with
  | nil => rfl
  | cons a rest ih =>
    by_cases h : s.canAccess a = true
    · simpa [guarded, h] using ih
    · simp [guarded, h]

theorem exec_perturb (hc : c.Unread) (i : Instr) (s : State) :
    exec i (s.perturb c v x) = mapNext (State.perturb c v x) (exec i s) := by
  rw [exec_eq_guarded, accesses_perturb hc, afterForm_perturb hc, guarded_perturb, ← exec_eq_guarded]

theorem accumulate_invoke_perturb (hc : c.Unread) (e : DispatchEntry) (s : State) :
    accumulate (invoke e (s.perturb c v x)) = mapNext (State.perturb c v x) (accumulate (invoke e s)) := by
  rw [accumulate_invoke, accumulate_invoke, exec_perturb hc]
  cases exec e.instr s with
  | next t => rfl
  | fault f => rfl
  | refused q => rfl

theorem busRead_perturb {s : State} {a : Word} {k k' : Byte → Result}
    (h : ∀ b, k' b = mapNext (State.perturb c v x) (k b)) :
    busRead (s.perturb c v x) a k' = mapNext (State.perturb c v x) (busRead s a k) := by
  rw [busRead_eq, busRead_eq, State.canAccess_perturb, State.perturb_bus, h]
  split
  · rfl
  · rfl

theorem resolve_perturb {s : State} {bytes : List Byte} {k k' : DispatchEntry → Result}
    (h : ∀ e, k' e = mapNext (State.perturb c v x) (k e)) :
    resolve (s.perturb c v x) bytes k' = mapNext (State.perturb c v x) (resolve s bytes k) := by
  unfold resolve
  rw [State.perturb_params]
  cases dispatchEntry s.params bytes with
  | none => rfl
  | some e => exact h e

theorem fetchOpcode_perturb (hc : c.Unread) {s : State} {k k' : DispatchEntry → Result}
    (h : ∀ e, k' e = mapNext (State.perturb c v x) (k e)) :
    fetchOpcode (s.perturb c v x) k' = mapNext (State.perturb c v x) (fetchOpcode s k) := by
  unfold fetchOpcode
  rw [s.readPC_perturb hc]
  refine busRead_perturb fun b0 => ?_
  split
  · exact busRead_perturb fun b1 => resolve_perturb h
  · exact resolve_perturb h

/-- A step commutes with a change of an unread cell and of iff1. -/
theorem step_perturb (hc : c.Unread) (s : State) :
    step (s.perturb c v x) = mapNext (State.perturb c v x) (step s) :=
  fetchOpcode_perturb hc fun e => accumulate_invoke_perturb hc e s

end

/-- Settles O39: each outcome of a step is carried over by `step_perturb`. -/
theorem shadowsSPAndIff1AreNeverRead : Obligations.ShadowsSPAndIff1AreNeverRead := by
  intro s c v x hc
  have hstep : step ((s.setCell c v).setIff1 x) = mapNext (State.perturb c v x) (step s) :=
    step_perturb (RegCell.unread_of_mem hc) s
  refine ⟨fun t ht => ?_, fun f hf => ?_, fun r hr => ?_⟩
  · rw [hstep, ht]; rfl
  · rw [hstep, hf]; rfl
  · rw [hstep, hr]; rfl

end Sys2Proof.Machine
end

section
/-! The invariant and the ROMs over steps, host actions and runs (20_memory.md R49 to R52, R54, R58; 40_engine.md R97):
whatever acts on the Bus acts on it by byte writes, and byte writes keep the layout, the ROMs and the canonical form. -/

namespace Sys2Proof.Machine

/-! ### Byte writes, one after the other -/

/-- The Bus after a list of byte writes, each an address and a byte (R54). -/
def Bus.writeAll (bus : Bus) (writes : List (Word × Byte)) : Bus := writes.foldl (fun b w => Bus.write b w.1 w.2) bus

@[simp] theorem Bus.writeAll_nil (bus : Bus) : bus.writeAll [] = bus := rfl

@[simp] theorem Bus.writeAll_cons (bus : Bus) (w : Word × Byte) (writes : List (Word × Byte)) :
    bus.writeAll (w :: writes) = (bus.write w.1 w.2).writeAll writes := rfl

theorem Bus.writeAll_append (bus : Bus) (first later : List (Word × Byte)) :
    bus.writeAll (first ++ later) = (bus.writeAll first).writeAll later := List.foldl_append

/-- What every byte write keeps, every list of byte writes keeps. -/
theorem Bus.writeAll_keeps {P : Bus → Prop} (hwrite : ∀ bus a v, P bus → P (Bus.write bus a v)) {bus : Bus}
    (h : P bus) (writes : List (Word × Byte)) : P (bus.writeAll writes) := by
  induction writes generalizing bus with
  | nil => exact h
  | cons w rest ih => exact ih (hwrite bus w.1 w.2 h)

theorem Bus.wf_writeAll {bus : Bus} (h : bus.wf = true) (writes : List (Word × Byte)) :
    (bus.writeAll writes).wf = true :=
  Bus.writeAll_keeps (P := fun b => b.wf = true) (fun _ a v hb => Bus.wf_write hb a v) h writes

@[simp] theorem Bus.disjoint_writeAll (bus : Bus) (writes : List (Word × Byte)) :
    (bus.writeAll writes).disjoint = bus.disjoint :=
  Bus.writeAll_keeps (P := fun b => b.disjoint = bus.disjoint) (fun b a v hb => (b.disjoint_write a v).trans hb) rfl
    writes

@[simp] theorem Bus.layout_writeAll (bus : Bus) (writes : List (Word × Byte)) :
    (bus.writeAll writes).layout = bus.layout :=
  Bus.writeAll_keeps (P := fun b => b.layout = bus.layout) (fun b a v hb => (b.layout_write a v).trans hb) rfl writes

/-- No list of byte writes changes a ROM (R49). -/
@[simp] theorem Bus.roms_writeAll (bus : Bus) (writes : List (Word × Byte)) :
    (bus.writeAll writes).roms = bus.roms :=
  Bus.writeAll_keeps (P := fun b => b.roms = bus.roms) (fun b a v hb => (b.roms_write a v).trans hb) rfl writes

/-- A read of an address no component takes a write at is not changed by a write: one there is dropped, one elsewhere
does not reach it (R54, R57). -/
theorem Bus.read_write_unwritable {bus : Bus} {a : Word} (h : bus.writable a = false) (a' : Word) (v : Byte) :
    (bus.write a' v).read a = bus.read a := by
  by_cases ha : a = a'
  · rw [← ha, Bus.write_unwritable h]
  · exact bus.read_write_ne v ha

theorem Bus.read_writeAll_unwritable {bus : Bus} {a : Word} (h : bus.writable a = false)
    (writes : List (Word × Byte)) : (bus.writeAll writes).read a = bus.read a := by
  induction writes generalizing bus with
  | nil => rfl
  | cons w rest ih =>
    rw [Bus.writeAll_cons, ih ((bus.writable_write w.1 w.2 a).trans h), Bus.read_write_unwritable h]

/-- Settles O18: neither the ROMs nor a read no RAM can change is changed by one write, so neither is by many. -/
theorem romWritesAreIdempotent : Obligations.RomWritesAreIdempotent := fun bus writes =>
  ⟨bus.roms_writeAll writes, fun _ h => Bus.read_writeAll_unwritable h writes⟩

/-! ### States that differ by byte writes -/

/-- `t`'s Bus is `s`'s after some byte writes, and its parameters are `s`'s; the registers, the flip-flops and T may
differ. -/
structure BusWritten (s t : State) : Prop where
  bus : ∃ writes, t.bus = s.bus.writeAll writes
  params : t.params = s.params

theorem BusWritten.refl (s : State) : BusWritten s s := ⟨⟨[], rfl⟩, rfl⟩

theorem BusWritten.trans {s t u : State} (hst : BusWritten s t) (htu : BusWritten t u) : BusWritten s u := by
  obtain ⟨⟨first, hfirst⟩, hparams⟩ := hst
  obtain ⟨⟨later, hlater⟩, hparams'⟩ := htu
  exact ⟨⟨first ++ later, by rw [hlater, hfirst, Bus.writeAll_append]⟩, hparams'.trans hparams⟩

theorem BusWritten.layout {s t : State} (h : BusWritten s t) : t.bus.layout = s.bus.layout := by
  obtain ⟨writes, hbus⟩ := h.bus
  rw [hbus, Bus.layout_writeAll]

theorem BusWritten.roms {s t : State} (h : BusWritten s t) : t.bus.roms = s.bus.roms := by
  obtain ⟨writes, hbus⟩ := h.bus
  rw [hbus, Bus.roms_writeAll]

/-- The invariant speaks of the Bus's bounds and canonical form and of the parameters only, so byte writes keep it. -/
theorem BusWritten.inv {s t : State} (h : BusWritten s t) (hs : s.Inv) : t.Inv := by
  obtain ⟨⟨writes, hbus⟩, hparams⟩ := h
  exact {
    components := by rw [hbus]; exact Bus.wf_writeAll hs.components writes
    singleOwner := by rw [hbus, hparams, Bus.disjoint_writeAll]; exact hs.singleOwner
    dispatch := by rw [hparams]; exact hs.dispatch }

/-- A step writes at most one byte (R61). -/
theorem step_busWritten {s t : State} (h : step s = .next t) : BusWritten s t := by
  obtain ⟨hbus | ⟨a, v, hbus⟩, hparams⟩ := step_bus h
  · exact ⟨⟨[], hbus⟩, hparams⟩
  · exact ⟨⟨[(a, v)], hbus⟩, hparams⟩

/-- A host action writes at most one word, which is two bytes (R56, R97). -/
theorem hostAct_busWritten (s : State) (action : HostAction) : BusWritten s (hostAct s action) := by
  obtain ⟨hbus | ⟨a, v, hbus⟩ | ⟨a, v, hbus⟩, hparams⟩ := hostAct_bus s action
  · exact ⟨⟨[], hbus⟩, hparams⟩
  · exact ⟨⟨[(a, v)], hbus⟩, hparams⟩
  · exact ⟨⟨[(a, loByte v), (a + 1, hiByte v)], hbus⟩, hparams⟩

theorem runInputs_busWritten {inputs : List RunInput} {s t : State} (h : runInputs inputs s = .next t) :
    BusWritten s t :=
  runInputs_keeps (P := BusWritten s) (fun _ _ hs hstep => hs.trans (step_busWritten hstep))
    (fun s' action hs => hs.trans (hostAct_busWritten s' action)) (BusWritten.refl s) h

/-- Settles O35: a step acts on the Bus by byte writes, which keep the invariant. -/
theorem stepKeepsInvariant : Obligations.StepKeepsInvariant := fun _ _ hs h => (step_busWritten h).inv hs

/-- Settles O36: a run, host actions included, acts on the Bus by byte writes. -/
theorem runsKeepInvariantAndRoms : Obligations.RunsKeepInvariantAndRoms := fun _ _ _ h =>
  have hrun := runInputs_busWritten h
  ⟨hrun.roms, hrun.layout, hrun.params, hrun.inv⟩

end Sys2Proof.Machine
end

section
/-! What the Bus reads and writes give, component by component, merged, and by words (20_memory.md R53 to R60, R71). -/

namespace Sys2Proof.Machine

/-! ### Reads -/

@[simp] theorem Component.getLsbD_drive (c : Component) (a : Word) (k : Nat) :
    (c.drive a).getLsbD k = (c.acceptRead a && (c.read a).getLsbD k) := by
  cases h : c.acceptRead a with
  | true => simp [Component.drive, h]
  | false => simp [Component.drive, h]

/-- Settles O12: the Bus's byte is the first component's drive ORed with the rest's, and a component that does not
accept drives zero. -/
theorem busReadOrsAcceptingComponents : Obligations.BusReadOrsAcceptingComponents := by
  intro bus a k
  induction bus with
  | nil => simp
  | cons c rest ih => rw [Bus.read_cons, BitVec.getLsbD_or, Component.getLsbD_drive, ih, List.any_cons]

/-- Settles O17: no component drives the Bus there, and a covered address is the only one a write can change. -/
theorem uncoveredReadsZeroAndDropsWrites : Obligations.UncoveredReadsZeroAndDropsWrites := fun _ _ v =>
  ⟨fun h => ⟨Bus.read_uncovered h, Bus.write_unwritable (Bus.writable_of_uncovered h) v⟩,
    fun h => Bus.write_unwritable h v⟩

/-- The order of the components does not matter to a read: OR is commutative and associative (R71). -/
theorem Bus.read_perm {bus bus' : Bus} (h : bus.Perm bus') (a : Word) : bus.read a = bus'.read a := by
  induction h with
  | nil => rfl
  | cons c _ ih => rw [Bus.read_cons, Bus.read_cons, ih]
  | swap c c' rest =>
    simp only [Bus.read_cons]
    rw [← BitVec.or_assoc, BitVec.or_comm (c'.drive a), BitVec.or_assoc]
  | trans _ _ ih ih' => exact ih.trans ih'

/-- A write acts on each component by itself, so the order does not matter to it either (R54, R71). -/
theorem Bus.write_perm {bus bus' : Bus} (h : bus.Perm bus') (a : Word) (v : Byte) :
    (bus.write a v).Perm (bus'.write a v) := h.map _

/-- Settles O19: reads by the commutativity of OR, writes because each component is written by itself. -/
theorem componentOrderChangesNoResult : Obligations.ComponentOrderChangesNoResult := fun _ _ h a v =>
  ⟨Bus.read_perm h a, Bus.write_perm h a v⟩

/-! ### Byte writes -/

@[simp] theorem Bus.length_write (bus : Bus) (a : Word) (v : Byte) : (bus.write a v).length = bus.length :=
  List.length_map ..

theorem Bus.getElem?_write {bus : Bus} {k : Nat} {c : Component} (h : bus[k]? = some c) (a : Word) (v : Byte) :
    (bus.write a v)[k]? = some (c.busWrite a v) := by
  rw [Bus.write_eq, List.getElem?_map, h, Option.map_some]

theorem Bus.wf_getElem? {bus : Bus} (hw : bus.wf = true) {k : Nat} {c : Component} (h : bus[k]? = some c) :
    c.wf = true := List.all_eq_true.1 hw c (List.mem_of_getElem? h)

/-- A component that takes no write there is unchanged (R54). -/
theorem Component.busWrite_of_not_accept {c : Component} {a : Word} (h : c.acceptWrite a = false) (v : Byte) :
    c.busWrite a v = c := by
  rw [Component.busWrite, h, if_neg Bool.false_ne_true]

/-- Settles O13: component k after the write is component k written, if it accepts. -/
theorem busWriteReachesEveryAcceptingComponent : Obligations.BusWriteReachesEveryAcceptingComponent :=
  fun bus a v hw => ⟨bus.length_write a v, fun _ c hc =>
    ⟨c.busWrite a v, Bus.getElem?_write hc a v, c.busWrite_kind a v, c.busWrite_start a v, c.busWrite_stop a v,
      Component.read_busWrite_same (Bus.wf_getElem? hw hc) v, fun _ hne hr => c.read_busWrite_ne v hne hr,
      fun h => Component.busWrite_of_not_accept h v⟩⟩

/-- Settles O14: the three laws of a Bus write. -/
theorem readAfterWrite : Obligations.ReadAfterWrite := fun bus a v hw =>
  ⟨Bus.read_write_same hw a v, fun _ h => bus.read_write_ne v h, Bus.wf_write hw a v⟩

/-- Where a RAM takes the write and no ROM drives the Bus, the byte reads back. -/
theorem Bus.read_write_ram {bus : Bus} (hw : bus.wf = true) {a : Word} (hwritable : bus.writable a = true)
    (hrom : bus.romByte a = 0) (v : Byte) : (bus.write a v).read a = v := by
  rw [Bus.read_write_same hw, if_pos hwritable, hrom, BitVec.ofNat_eq_ofNat, BitVec.or_zero]

/-! ### Words -/

theorem loByte_eq_ofNat (v : Word) : loByte v = BitVec.ofNat 8 v.toNat := rfl

theorem toNat_loByte (v : Word) : (loByte v).toNat = v.toNat % 256 := BitVec.toNat_setWidth 8 v

theorem toNat_hiByte (v : Word) : (hiByte v).toNat = v.toNat / 256 := by
  have hv : v.toNat < 65536 := v.isLt
  rw [hiByte, BitVec.toNat_setWidth, BitVec.toNat_ushiftRight, Nat.shiftRight_eq_div_pow]
  omega

theorem hiByte_eq_ofNat (v : Word) : hiByte v = BitVec.ofNat 8 (v.toNat / 256) := by
  rw [← toNat_hiByte, BitVec.ofNat_toNat, BitVec.setWidth_eq]

theorem Bus.toNat_readWord (bus : Bus) (a : Word) :
    (bus.readWord a).toNat = (bus.read (a + 1)).toNat * 256 + (bus.read a).toNat := toNat_wordOf ..

/-- Settles O15: `hi:lo` is `hi*256 + lo`, and `0xFFFF +16 1` is 0. -/
theorem wordReadIsLittleEndian : Obligations.WordReadIsLittleEndian := fun bus a =>
  ⟨bus.toNat_readWord a, bus.toNat_readWord 0xFFFF⟩

theorem Bus.read_writeWord_ne (bus : Bus) {a a' : Word} (v : Word) (h : a' ≠ a) (h' : a' ≠ a + 1) :
    (bus.writeWord a v).read a' = bus.read a' := by
  rw [Bus.writeWord, Bus.read_write_ne _ _ h', Bus.read_write_ne _ _ h]

section
variable {bus : Bus} {a : Word} (hw : bus.wf = true) (v : Word)
include hw

/-- The low byte of a word written reads back: the high byte's write, at another address, leaves it alone. -/
theorem Bus.read_writeWord_low (hwritable : bus.writable a = true) (hrom : bus.romByte a = 0) :
    (bus.writeWord a v).read a = loByte v := by
  have hne : a ≠ a + 1 := by simp
  rw [Bus.writeWord, Bus.read_write_ne _ _ hne, Bus.read_write_ram hw hwritable hrom]

theorem Bus.read_writeWord_high (hwritable : bus.writable (a + 1) = true) (hrom : bus.romByte (a + 1) = 0) :
    (bus.writeWord a v).read (a + 1) = hiByte v :=
  Bus.read_write_ram (Bus.wf_write hw _ _) ((bus.writable_write ..).trans hwritable) ((bus.romByte_write ..).trans hrom)
    _

end

/-- Settles O16: a word write is defined as the two byte writes, and each byte reads back by the law of one write. -/
theorem wordWriteIsTwoByteWrites : Obligations.WordWriteIsTwoByteWrites := by
  intro bus a v
  refine ⟨by rw [Bus.writeWord, loByte_eq_ofNat, hiByte_eq_ofNat], fun hw hlow hhigh hrom hrom' => ?_⟩
  have low := Bus.read_writeWord_low hw v hlow hrom
  have high := Bus.read_writeWord_high hw v hhigh hrom'
  refine ⟨?_, ?_, ?_, fun a' h h' => bus.read_writeWord_ne v h h'⟩
  · rw [low, toNat_loByte]
  · rw [high, toNat_hiByte]
  · rw [Bus.readWord, low, high, wordOf_halves]

end Sys2Proof.Machine
end

section
/-! Construction, boot and reset (20_memory.md R45 to R52; 70_reset_and_hazards.md R132 to R138): what is built of an
admitted component, and that everything else is refused. -/

namespace Sys2Proof.Machine

/-! ### One component -/

/-- The component built of an admitted specification: a RAM's store all zero (R47), a ROM's its image (R50). -/
def builtComponent : ComponentSpec → Component
  | .ram start stop => { kind := .ram, start := start, stop := stop, store := [] }
  | .rom start stop image => { kind := .rom, start := start, stop := stop, store := Memory.ofBytes 0 image }

@[simp] theorem builtComponent_start (spec : ComponentSpec) : (builtComponent spec).start = specStart spec := by
  cases spec <;> rfl

@[simp] theorem builtComponent_stop (spec : ComponentSpec) : (builtComponent spec).stop = specStop spec := by
  cases spec <;> rfl

/-- Exactly the admitted specifications are built (R50, R51). -/
theorem buildComponent_eq_ok_iff (spec : ComponentSpec) (c : Component) :
    buildComponent spec = .ok c ↔ SpecAdmitted spec ∧ builtComponent spec = c := by
  cases spec with
  | ram start stop =>
    by_cases hb : boundsWf start stop = true
    · simp [buildComponent, builtComponent, SpecAdmitted, hb, (boundsWf_iff start stop).1 hb]
    · simp [buildComponent, SpecAdmitted, hb, ← boundsWf_iff]
  | rom start stop image =>
    by_cases hb : boundsWf start stop = true
    · by_cases hi : image.length = stop - start
      · simp [buildComponent, builtComponent, SpecAdmitted, hb, hi, (boundsWf_iff start stop).1 hb]
      · simp [buildComponent, SpecAdmitted, hb, hi]
    · simp [buildComponent, SpecAdmitted, hb, ← and_assoc, ← boundsWf_iff]

theorem buildComponent_of_admitted {spec : ComponentSpec} (h : SpecAdmitted spec) :
    buildComponent spec = .ok (builtComponent spec) := (buildComponent_eq_ok_iff spec _).2 ⟨h, rfl⟩

/-- A built component has admitted bounds and a canonical store of its size (R46, R51). -/
theorem wf_builtComponent {spec : ComponentSpec} (h : SpecAdmitted spec) : (builtComponent spec).wf = true := by
  cases spec with
  | ram start stop =>
    rw [Component.wf, Bool.and_eq_true]
    exact ⟨(boundsWf_iff start stop).2 h, rfl⟩
  | rom start stop image =>
    obtain ⟨hstart, hstop, hlength⟩ := h
    obtain ⟨hcanonical, hsize⟩ := Memory.wf_ofBytes image 0
    rw [Nat.zero_add, hlength] at hsize
    rw [Component.wf, Memory.wf, Bool.and_eq_true, Bool.and_eq_true]
    exact ⟨(boundsWf_iff start stop).2 ⟨hstart, hstop⟩, hcanonical, hsize⟩

theorem Component.acceptRead_eq (c : Component) (a : Word) :
    c.acceptRead a = decide (c.start ≤ a.toNat ∧ a.toNat < c.stop) := (Bool.decide_and ..).symm

/-- Where a component accepts it gives its store's byte (R46). -/
theorem Component.read_of_acceptRead {c : Component} {a : Word} (h : c.acceptRead a = true) :
    c.read a = Memory.get c.store (a.toNat - c.start) := if_pos h

/-- A built ROM reads byte k of its image at `inclusiveStart + k` (R50). -/
theorem read_builtRom {start stop : Nat} {image : List Byte} (h : SpecAdmitted (.rom start stop image)) {k : Nat}
    {b : Byte} (hk : image[k]? = some b) :
    (builtComponent (.rom start stop image)).read (BitVec.ofNat 16 (start + k)) = b := by
  obtain ⟨-, hstop, hlength⟩ := h
  have hlt : k < image.length := (List.getElem?_eq_some_iff.1 hk).1
  have haddr : (BitVec.ofNat 16 (start + k)).toNat = start + k := by
    rw [BitVec.toNat_ofNat]; omega
  have haccept : (builtComponent (.rom start stop image)).acceptRead (BitVec.ofNat 16 (start + k)) = true := by
    rw [Component.acceptRead_eq, haddr, decide_eq_true_eq]
    exact ⟨Nat.le_add_right .., show start + k < stop by omega⟩
  rw [Component.read_of_acceptRead haccept, haddr, builtComponent_start]
  rw [show start + k - specStart (.rom start stop image) = 0 + k from by simp [specStart]]
  exact Memory.get_ofBytes image 0 k b hk

/-- Settles O2: an admitted RAM is built with an empty store, and an unlisted offset reads zero. -/
theorem builtRamReadsZero : Obligations.BuiltRamReadsZero := fun start stop hstart hstop =>
  ⟨builtComponent (.ram start stop), buildComponent_of_admitted ⟨hstart, hstop⟩, rfl, rfl, rfl,
    Component.acceptRead_eq _, fun _ => Component.acceptWrite_ram rfl, fun _ h => Component.read_of_acceptRead h⟩

/-- Settles O3: an admitted ROM is built with its image as its store. -/
theorem builtRomReadsItsImage : Obligations.BuiltRomReadsItsImage := fun start stop image hstart hstop hlength =>
  have hadmitted : SpecAdmitted (.rom start stop image) := ⟨hstart, hstop, hlength⟩
  ⟨builtComponent (.rom start stop image), buildComponent_of_admitted hadmitted, rfl, rfl, rfl,
    Component.acceptRead_eq _, fun _ => Component.acceptWrite_rom rfl, fun _ _ hk => read_builtRom hadmitted hk⟩

/-! ### All components -/

theorem buildComponents_of_admitted {specs : List ComponentSpec} (h : ∀ spec ∈ specs, SpecAdmitted spec) :
    buildComponents specs = .ok (specs.map builtComponent) := by
  induction specs with
  | nil => rfl
  | cons spec rest ih =>
    obtain ⟨hspec, hrest⟩ := List.forall_mem_cons.1 h
    rw [buildComponents, buildComponent_of_admitted hspec, ih hrest, List.map_cons]

/-- The Bus is built exactly when every specification is admitted, and is what is built of each, in order (R52). -/
theorem buildComponents_eq_ok_iff (specs : List ComponentSpec) (bus : Bus) :
    buildComponents specs = .ok bus ↔ (∀ spec ∈ specs, SpecAdmitted spec) ∧ specs.map builtComponent = bus := by
  constructor
  · intro h
    have hbuilt := buildComponents_ok h
    simp only [buildComponent_eq_ok_iff, List.forall₂_and_left] at hbuilt
    obtain ⟨hadmitted, hbus⟩ := hbuilt
    rw [← List.forall₂_map_left_iff, List.forall₂_eq_eq_eq] at hbus
    exact ⟨hadmitted, hbus⟩
  · rintro ⟨h, rfl⟩
    exact buildComponents_of_admitted h

/-- A built Bus is well formed. -/
theorem wf_builtBus {specs : List ComponentSpec} (h : ∀ spec ∈ specs, SpecAdmitted spec) :
    Bus.wf (specs.map builtComponent) = true := by
  rw [Bus.wf, List.all_map, List.all_eq_true]
  exact fun spec hspec => wf_builtComponent (h spec hspec)

/-- A built Bus has single ownership exactly when no two specifications share an address (R51). -/
theorem disjoint_builtBus_iff (specs : List ComponentSpec) :
    Bus.disjoint (specs.map builtComponent) = true ↔ specs.Pairwise SpecsDisjoint := by
  induction specs with
  | nil => simp [Bus.disjoint]
  | cons spec rest ih =>
    simp only [List.map_cons, Bus.disjoint, Bool.and_eq_true, ih, List.pairwise_cons, List.all_map, List.all_eq_true,
      Function.comp_apply, builtComponent_start, builtComponent_stop, rangesDisjoint_iff, SpecsDisjoint]

/-! ### Boot -/

/-- What boot admits (R50, R51, R80, log 19). -/
structure LaunchAdmitted (launch : Launch) : Prop where
  components : ∀ spec ∈ launch.components, SpecAdmitted spec
  singleOwner : launch.params.strictSingleOwner = true → launch.components.Pairwise SpecsDisjoint
  dispatch : launch.params.dispatch.wf = true

/-- The state boot answers to an admitted launch (R138). -/
def bootedState (launch : Launch) : State where
  regs := launch.regs
  iff1 := launch.iff1
  iff2 := launch.iff2
  bus := launch.components.map builtComponent
  total := 0
  params := launch.params

theorem boot_of_admitted {launch : Launch} (h : LaunchAdmitted launch) : boot launch = .next (bootedState launch) := by
  have howner : (launch.params.strictSingleOwner && !Bus.disjoint (launch.components.map builtComponent)) = false := by
    cases hs : launch.params.strictSingleOwner with
    | false => rfl
    | true => rw [(disjoint_builtBus_iff _).2 (h.singleOwner hs)]; rfl
  simp [boot, buildComponents_of_admitted h.components, howner, h.dispatch, bootedState]

/-- Boot's three checks are `LaunchAdmitted`'s three clauses. -/
theorem admitted_of_boot {launch : Launch} {s : State} (h : boot launch = .next s) : LaunchAdmitted launch := by
  unfold boot at h
  split at h
  · cases h
  · rename_i bus hbuild
    obtain ⟨hcomponents, rfl⟩ := (buildComponents_eq_ok_iff _ _).1 hbuild
    split at h
    · cases h
    · split at h
      · cases h
      · rename_i howner hdispatch
        exact {
          components := hcomponents
          singleOwner := fun hs => (disjoint_builtBus_iff _).1 (by simpa [hs] using howner)
          dispatch := by simpa using hdispatch }

theorem boot_eq_next_iff (launch : Launch) (s : State) :
    boot launch = .next s ↔ LaunchAdmitted launch ∧ bootedState launch = s := by
  constructor
  · intro h
    have hadmitted := admitted_of_boot h
    rw [boot_of_admitted hadmitted] at h
    exact ⟨hadmitted, Host.Outcome.next.inj h⟩
  · rintro ⟨hadmitted, rfl⟩
    exact boot_of_admitted hadmitted

/-- A launch that does not boot is refused: boot accesses no Bus and never faults. -/
theorem boot_ne_fault (launch : Launch) (f : Fault) : boot launch ≠ .fault f := by
  unfold boot
  split
  · simp
  · split
    · simp
    · split <;> simp

theorem LaunchAdmitted.inv {launch : Launch} (h : LaunchAdmitted launch) : (bootedState launch).Inv where
  components := wf_builtBus h.components
  singleOwner hs := (disjoint_builtBus_iff _).2 (h.singleOwner hs)
  dispatch := h.dispatch

/-- Settles O4: an admitted launch boots, and a launch that boots passed the three checks. -/
theorem bootSucceedsExactlyOnAdmittedBus : Obligations.BootSucceedsExactlyOnAdmittedBus := fun launch =>
  ⟨⟨fun ⟨_, h⟩ => have hadmitted := admitted_of_boot h
      ⟨hadmitted.components, hadmitted.singleOwner, hadmitted.dispatch⟩,
    fun ⟨hcomponents, howner, hdispatch⟩ => ⟨_, boot_of_admitted ⟨hcomponents, howner, hdispatch⟩⟩⟩,
    boot_ne_fault launch⟩

/-- Settles O5: the booted state is `bootedState`, whose Bus is what is built of each component. -/
theorem bootedStateSatisfiesInvariant : Obligations.BootedStateSatisfiesInvariant := by
  intro launch s h
  obtain ⟨hadmitted, rfl⟩ := (boot_eq_next_iff launch s).1 h
  refine ⟨hadmitted.inv, rfl, rfl, rfl, rfl, rfl, List.length_map .., fun k spec hk => ?_⟩
  have hspec : SpecAdmitted spec := hadmitted.components spec (List.mem_of_getElem? hk)
  refine ⟨builtComponent spec, ?_, buildComponent_of_admitted hspec⟩
  rw [bootedState, List.getElem?_map, hk, Option.map_some]

/-- Settles O1: one RAM of zeros is well formed, R8's default asks for no single ownership, and the default table is
a dispatch table. -/
theorem resetSatisfiesInvariant : Obligations.ResetSatisfiesInvariant where
  components := State.reset_bus_wf
  singleOwner h := absurd h Bool.false_ne_true
  dispatch := rfl

end Sys2Proof.Machine
end

section
/-! Faults of an instruction's accesses, and the fetch of a byte just stored (20_memory.md R57, R61, R66, R69;
60_exceptions.md R118, R119; 70_reset_and_hazards.md R140). -/

namespace Sys2Proof.Machine

/-! ### FAULT_ON_UNMAPPED -/

/-- A list of accesses faults exactly at its first one that is not allowed. -/
theorem guarded_eq_fault_iff (s t : State) (l : List Word) (a : Word) :
    guarded s t l = .fault (.unmappedAccess a) ↔ l.find? (fun a => !s.canAccess a) = some a := by
  refine ⟨fun h => ?_, guarded_fault_of_find⟩
  cases hfind : l.find? (fun a => !s.canAccess a) with
  | none =>
    rw [guarded_of_all (by simpa using hfind)] at h
    cases h
  | some b =>
    rw [guarded_fault_of_find hfind] at h
    cases h
    rfl

/-- Under FAULT_ON_UNMAPPED the access allowed is the one covered (R119). -/
theorem State.canAccess_of_faultOnUnmapped {s : State} (h : s.params.faultOnUnmapped = true) (a : Word) :
    s.canAccess a = s.bus.covers a := by
  rw [State.canAccess, h, Bool.not_true, Bool.false_or]

/-- Settles O29: all 95 opcodes run their accesses in order, and by default every access is allowed. -/
theorem execFaultsExactlyOnUncoveredAccess : Obligations.ExecFaultsExactlyOnUncoveredAccess := by
  intro i s a
  rw [exec_eq_guarded, guarded_eq_fault_iff]
  cases h : s.params.faultOnUnmapped with
  | true => simp only [State.canAccess_of_faultOnUnmapped h, true_and]
  | false =>
    have hnone : (accesses i s).find? (fun a => !s.canAccess a) = none := by simp [State.canAccess_of_default s h]
    simp [hnone]

/-! ### The default -/

theorem exec_of_default {s : State} (h : s.params.faultOnUnmapped = false) (i : Instr) :
    exec i s = .next (afterForm s i.form) := exec_of_accesses fun a _ => s.canAccess_of_default h a

theorem State.canFetch_of_default {s : State} (h : s.params.faultOnUnmapped = false) : s.canFetch :=
  ⟨s.canAccess_of_default h _, fun _ => s.canAccess_of_default h _⟩

/-- Where DISPATCH has no entry for the opcode's bytes, a step refuses them (R82). -/
theorem step_of_no_lookup {s : State} (h : s.canFetch) (hnone : dispatchLookup s.params.dispatch s.opcodeBytes = none) :
    step s = .refused (.unadmittedOpcode s.opcodeBytes) := by
  rw [step, fetchOpcode_of_canFetch h, resolve, dispatchEntry, hnone, Option.map_none]

/-- By default a step is refused or completes. -/
theorem step_ne_fault_of_default {s : State} (h : s.params.faultOnUnmapped = false) (f : Fault) :
    step s ≠ .fault f := by
  have hfetch := State.canFetch_of_default h
  cases hi : dispatchLookup s.params.dispatch s.opcodeBytes with
  | none => simp [step_of_no_lookup hfetch hi]
  | some i => simp [(stepRuns_of_lookup hfetch hi).next _ (exec_of_default h i)]

/-- Settles O30: by default every access is allowed, the fetch's too. -/
theorem nothingFaultsByDefault : Obligations.NothingFaultsByDefault := fun _ h =>
  ⟨fun i => ⟨_, exec_of_default h i⟩, step_ne_fault_of_default h⟩

/-! ### A store into the next opcode -/

/-- The opcode table's row of every opcode: its bytes decode to it, are a key of the procedure and have its layout's
length (R79, R80). -/
theorem opcodeTable_row (i : Instr) : Laws.OpcodeTable.Statement i := by
  unfold Laws.OpcodeTable.Statement
  cases i <;> decide

/-- Behind a byte that is an opcode by itself the fetch reads no other (R75, R79). -/
theorem not_isDecodedPrefix_of_key {b : Byte} (h : opcodeKeyWf [b] = true) : isDecodedPrefix b = false := by
  simp only [opcodeKeyWf, isTablePrefix, Bool.not_eq_true', Bool.or_eq_false_iff] at h
  obtain ⟨⟨⟨-, hdd⟩, hed⟩, hfd⟩ := h
  rw [isDecodedPrefix, hdd, hed, hfd]
  rfl

theorem State.opcodeBytes_eq_byte0 {s : State} (h : isDecodedPrefix (s.instrByte 0) = false) :
    s.opcodeBytes = [s.instrByte 0] := by
  rw [State.opcodeBytes, h, if_neg Bool.false_ne_true]

/-- A one-byte opcode at PC is what a step under the default table runs. -/
theorem stepRuns_of_instrByte {s : State} {i : Instr} (hdispatch : s.params.dispatch = .standard) (hfetch : s.canFetch)
    (h : i.opcode = [s.instrByte 0]) : StepRuns s i.opcode i := by
  obtain ⟨hdecode, hkey, -⟩ := opcodeTable_row i
  rw [h] at hkey
  have hbytes : s.opcodeBytes = i.opcode := by
    rw [State.opcodeBytes_eq_byte0 (not_isDecodedPrefix_of_key hkey), h]
  rw [← hbytes]
  exact stepRuns_of_lookup hfetch (by rw [hdispatch, hbytes]; exact hdecode)

/-- A byte stored where PC goes on is the next instruction's byte 0 (R69). -/
theorem instrByte_afterStore {s : State} (hw : s.bus.wf = true) {len a : Word} (ha : a = s.readWord .pc + len)
    (hwritable : s.bus.writable a = true) (hrom : s.bus.romByte a = 0) (v : Byte) :
    (afterStore s len a v).instrByte 0 = v := by
  have heffect := storeEffect_afterStore hw len a v
  rw [State.instrByte, heffect.pc, ← ha, BitVec.ofNat_eq_ofNat, BitVec.add_zero, heffect.stored hwritable, hrom,
    BitVec.ofNat_eq_ofNat, BitVec.or_zero]

/-- Settles O40: LD (HL),A leaves PC at HL, where the Bus now reads A's byte. -/
theorem storeIntoNextOpcodeIsFetched : Obligations.StoreIntoNextOpcodeIsFetched := by
  intro s t i hs hdispatch hdefault hbyte hhl hwritable hrom hopcode hstep
  have hruns : StepRuns s _ .ld_atHL_A :=
    stepRuns_of_instrByte hdispatch (State.canFetch_of_default hdefault) (by rw [hbyte]; rfl)
  obtain rfl := Host.Outcome.next.inj (hstep.symm.trans (hruns.next _ (exec_of_default hdefault _)))
  refine stepRuns_of_instrByte hdispatch (State.canFetch_of_default hdefault) ?_
  have hstored := instrByte_afterStore hs.components hhl hwritable hrom (s.readByte .a)
  exact hopcode.trans (congrArg (fun b => [b]) hstored.symm)

end Sys2Proof.Machine
end

section
/-! The opcode byte, decoding, encoding and the dispatch table (30_encoding.md R72 to R83). -/

namespace Sys2Proof

open Machine (byte00 byte01 registerCode)

/-! ### Fields of an opcode byte -/

/-- A byte is its three fields (R73). -/
theorem append_fields (b : Byte) : topField b ++ dddField b ++ sssField b = b := by
  refine BitVec.eq_of_getLsbD_eq fun k hk => ?_
  rw [BitVec.getLsbD_append, BitVec.getLsbD_append]
  unfold topField dddField sssField
  simp only [BitVec.getLsbD_setWidth, BitVec.getLsbD_ushiftRight]
  split
  next h => simp [h]
  next h =>
    split
    next h' => simp [h', Nat.add_sub_cancel' (Nat.le_of_not_lt h)]
    next h' => simp [show k - 3 - 3 < 2 by omega, show 6 + (k - 3 - 3) = k by omega]

theorem registerCode_of_regOfCode {code : BitVec 3} {r : Reg8} (h : regOfCode code = some r) :
    registerCode r = code := by
  revert code r
  decide

/-- Code 110 is the memory operand and the only one that names no register (R74). -/
theorem eq_memoryCode_of_regOfCode {code : BitVec 3} (h : regOfCode code = none) : code = 0b110 := by
  revert code
  decide

theorem eq_byte01 {b : Byte} (h : topField b = 0b01) : byte01 (dddField b) (sssField b) = b := by
  rw [byte01, show 0b01#2 = topField b from h.symm]
  exact append_fields b

theorem eq_byte00 {b : Byte} (htop : topField b = 0b00) (hsss : sssField b = 0b110) : byte00 (dddField b) = b := by
  rw [byte00, show 0b00#2 = topField b from htop.symm, show 0b110#3 = sssField b from hsss.symm]
  exact append_fields b

/-! ### The opcodes of the forms with registers, by the layouts of R73 -/

theorem opcode_ldRR (r r' : Reg8) : (Form.ldRR r r').instr.opcode = [byte01 (registerCode r) (registerCode r')] := by
  cases r <;> cases r' <;> rfl

theorem opcode_ldRN (r : Reg8) : (Form.ldRN r).instr.opcode = [byte00 (registerCode r)] := by cases r <;> rfl

theorem opcode_ldRHL (r : Reg8) : (Form.ldRHL r).instr.opcode = [byte01 (registerCode r) 0b110] := by
  cases r <;> rfl

theorem opcode_ldHLR (r : Reg8) : (Form.ldHLR r).instr.opcode = [byte01 0b110 (registerCode r)] := by
  cases r <;> rfl

theorem opcode_ldRIX (r : Reg8) : (Form.ldRIX r).instr.opcode = [0xDD, byte01 (registerCode r) 0b110] := by
  cases r <;> rfl

theorem opcode_ldRIY (r : Reg8) : (Form.ldRIY r).instr.opcode = [0xFD, byte01 (registerCode r) 0b110] := by
  cases r <;> rfl

/-! ### The decode procedure answers only an opcode's own bytes -/

theorem opcode_of_decodeUnprefixed {b0 : Byte} {f : Form} (h : decodeUnprefixed b0 = some f) :
    f.instr.opcode = [b0] := by
  unfold decodeUnprefixed at h
  split at h
  next htop =>
    rw [← eq_byte01 htop]
    split at h
    next hr hr' =>
      cases h
      rw [opcode_ldRR, registerCode_of_regOfCode hr, registerCode_of_regOfCode hr']
    next hr hnone =>
      cases h
      rw [opcode_ldRHL, registerCode_of_regOfCode hr, eq_memoryCode_of_regOfCode hnone]
    next hnone hr =>
      cases h
      rw [opcode_ldHLR, registerCode_of_regOfCode hr, eq_memoryCode_of_regOfCode hnone]
    next => cases h
  next =>
    split at h
    next hfields =>
      rw [← eq_byte00 hfields.1 hfields.2]
      split at h
      next hr =>
        cases h
        rw [opcode_ldRN, registerCode_of_regOfCode hr]
      next hnone =>
        cases h
        rw [eq_memoryCode_of_regOfCode hnone]
        rfl
    next => split_ifs at h <;> cases h <;> subst b0 <;> rfl

/-- Behind 0xDD or 0xFD, given the opcodes of its store and its loads. -/
theorem opcode_of_decodeIndexed {indexPrefix b1 : Byte} {store f : Form} {load : Reg8 → Form}
    (hstore : store.instr.opcode = [indexPrefix, 0x36])
    (hload : ∀ r, (load r).instr.opcode = [indexPrefix, byte01 (registerCode r) 0b110])
    (h : decodeIndexed store load b1 = some f) : f.instr.opcode = [indexPrefix, b1] := by
  unfold decodeIndexed at h
  split_ifs at h with hb1 hfields
  · cases h
    rw [hstore, hb1]
  · obtain ⟨r, hr, rfl⟩ := Option.map_eq_some_iff.1 h
    rw [hload, registerCode_of_regOfCode hr, ← hfields.2, eq_byte01 hfields.1]

theorem opcode_of_decodeExtended {b1 : Byte} {f : Form} (h : decodeExtended b1 = some f) :
    f.instr.opcode = [0xED, b1] := by
  unfold decodeExtended at h
  split_ifs at h <;> cases h <;> subst b1 <;> rfl

theorem opcode_of_decodePrefixed {b0 b1 : Byte} {f : Form} (h : decodePrefixed b0 b1 = some f) :
    f.instr.opcode = [b0, b1] := by
  unfold decodePrefixed at h
  split_ifs at h with hix hiy hed
  · exact hix ▸ opcode_of_decodeIndexed rfl opcode_ldRIX h
  · exact hiy ▸ opcode_of_decodeIndexed rfl opcode_ldRIY h
  · exact hed ▸ opcode_of_decodeExtended h

theorem opcode_of_decodeOpcode {bytes : List Byte} {i : Instr} (h : decodeOpcode bytes = some i) :
    i.opcode = bytes := by
  unfold decodeOpcode at h
  split at h
  next =>
    split_ifs at h
    obtain ⟨f, hf, rfl⟩ := Option.map_eq_some_iff.1 h
    exact opcode_of_decodeUnprefixed hf
  next =>
    obtain ⟨f, hf, rfl⟩ := Option.map_eq_some_iff.1 h
    exact opcode_of_decodePrefixed hf
  next => cases h

theorem decodeOpcode_opcode (i : Instr) : decodeOpcode i.opcode = some i := (Machine.opcodeTable_row i).1

/-- The decode procedure reads exactly the opcode column of R80's table. -/
theorem decodeOpcode_eq_some_iff {bytes : List Byte} {i : Instr} : decodeOpcode bytes = some i ↔ i.opcode = bytes :=
  ⟨opcode_of_decodeOpcode, fun h => h ▸ decodeOpcode_opcode i⟩

theorem Instr.opcode_injective : Function.Injective Instr.opcode := fun i j h =>
  Option.some.inj ((decodeOpcode_opcode i).symm.trans (h ▸ decodeOpcode_opcode j))

/-- An opcode is one byte behind which the fetch reads no other, or two, the first 0xDD, 0xED or 0xFD (R79). -/
theorem opcode_cases (i : Instr) :
    (∃ b0, i.opcode = [b0] ∧ isDecodedPrefix b0 = false) ∨
      ∃ b0 b1, i.opcode = [b0, b1] ∧ isDecodedPrefix b0 = true := by
  obtain ⟨-, hkey, -⟩ := Machine.opcodeTable_row i
  match h : i.opcode with
  | [b0] => exact .inl ⟨b0, rfl, Machine.not_isDecodedPrefix_of_key (h ▸ hkey)⟩
  | [b0, b1] =>
    rw [h] at hkey
    exact .inr ⟨b0, b1, rfl, hkey⟩
  | [] => rw [h] at hkey; cases hkey
  | _ :: _ :: _ :: _ => rw [h] at hkey; cases hkey

/-! ### Operand bytes -/

/-- The operands of a well-formed instruction, by its layout (R73). -/
theorem Asm.wf_cases {i : Instr} {operands : Operands} (h : Asm.wf ⟨i, operands⟩ = true) :
    (i.format = .fmtA ∧ operands = .none) ∨ (i.format = .fmtB ∧ ∃ n, operands = .imm n) ∨
      (i.format = .fmtC ∧ ∃ nn, operands = .addr nn) ∨ (i.format = .fmtD ∧ operands = .none) ∨
      (i.format = .fmtE ∧ ∃ d, operands = .disp d) ∨ (i.format = .fmtF ∧ ∃ d n, operands = .dispImm d n) := by
  rw [Asm.wf] at h
  cases hf : i.format <;> cases operands <;> simp_all

/-- Operands of the opcode's layout are read back from their bytes (R73, R76 to R78). -/
theorem takeOperands_bytes {x : Asm} (h : x.wf = true) (rest : List Byte) :
    takeOperands x.instr (x.operands.bytes ++ rest) = .ok (x, rest) := by
  obtain ⟨i, operands⟩ := x
  obtain ⟨hf, rfl⟩ | ⟨hf, _, rfl⟩ | ⟨hf, _, rfl⟩ | ⟨hf, rfl⟩ | ⟨hf, _, rfl⟩ | ⟨hf, _, _, rfl⟩ := Asm.wf_cases h <;>
    simp [takeOperands, Operands.bytes, hf]

/-- What is read as operands has the opcode's layout and stands at the front of the bytes. -/
theorem takeOperands_ok {i : Instr} {bytes rest : List Byte} {x : Asm} (h : takeOperands i bytes = .ok (x, rest)) :
    x.instr = i ∧ x.wf = true ∧ bytes = x.operands.bytes ++ rest := by
  unfold takeOperands at h
  split at h <;> cases h <;> simp [Asm.wf, Operands.bytes, *]

/-! ### The whole instruction -/

/-- Behind an opcode's bytes the decoder reads its operands (R79). -/
theorem decode_opcode_append (i : Instr) (bytes : List Byte) : decode (i.opcode ++ bytes) = takeOperands i bytes := by
  have hdecode := decodeOpcode_opcode i
  obtain ⟨b0, hop, hp⟩ | ⟨b0, b1, hop, hp⟩ := opcode_cases i <;> rw [hop] at hdecode <;>
    simp [hop, decode, hp, hdecode]

/-- Whatever the decoder reads begins with the opcode's bytes, its operands behind them. -/
theorem decode_ok {bytes rest : List Byte} {x : Asm} (h : decode bytes = .ok (x, rest)) :
    ∃ i operandBytes, bytes = i.opcode ++ operandBytes ∧ takeOperands i operandBytes = .ok (x, rest) := by
  unfold decode at h
  split at h
  next => cases h
  next =>
    split at h
    · split at h
      next => cases h
      next =>
        split at h
        next hi => exact ⟨_, _, by rw [opcode_of_decodeOpcode hi]; rfl, h⟩
        next => cases h
    · split at h
      next hi => exact ⟨_, _, by rw [opcode_of_decodeOpcode hi]; rfl, h⟩
      next => cases h

/-- Settles O20: the decoder reads the opcode's bytes, then the operands of its layout. -/
theorem decodeOfEncode : Obligations.DecodeOfEncode := fun x rest h => by
  rw [encode, List.append_assoc, decode_opcode_append, takeOperands_bytes h]

/-- Settles O21: the bytes read are the opcode's and then the operands'. -/
theorem encodeOfDecode : Obligations.EncodeOfDecode := by
  intro bytes x rest h
  obtain ⟨i, operandBytes, rfl, htake⟩ := decode_ok h
  obtain ⟨rfl, hwf, rfl⟩ := takeOperands_ok htake
  exact ⟨hwf, by rw [encode, List.append_assoc]⟩

/-! ### The dispatch table -/

theorem Reg8.mem_all (r : Reg8) : r ∈ Reg8.all := by cases r <;> decide

theorem Form.mem_all (f : Form) : f ∈ Form.all := by
  cases f <;> simp [Form.all, Reg8.mem_all]

theorem Instr.mem_all (i : Instr) : i ∈ Instr.all :=
  List.mem_map.2 ⟨i.form, i.form.mem_all, Machine.Instr.form_instr i⟩

theorem Instr.nodup_all : Instr.all.Nodup := by decide

theorem mem_standardRows_iff {row : List Byte × Instr} : row ∈ standardRows ↔ row.2.opcode = row.1 := by
  obtain ⟨key, i⟩ := row
  simp [standardRows, Instr.mem_all, and_comm]

theorem nodup_standardKeys : (standardRows.map Prod.fst).Nodup := by
  rw [standardRows, List.map_map]
  exact Instr.nodup_all.map Instr.opcode_injective

/-- A DISPATCH table's rows are opcodes of their layout's length, under distinct bytes (R80). -/
theorem dispatchRowsWf_iff (rows : List (List Byte × Instr)) :
    dispatchRowsWf rows = true ↔
      (∀ row ∈ rows, opcodeKeyWf row.1 = true ∧ row.1.length = row.2.format.opcodeLength) ∧
        (rows.map Prod.fst).Nodup := by
  induction rows with
  | nil => simp [dispatchRowsWf]
  | cons row rows ih =>
    obtain ⟨key, i⟩ := row
    simp only [dispatchRowsWf, Bool.and_eq_true, beq_iff_eq, List.all_eq_true, bne_iff_ne, ih, List.forall_mem_cons,
      List.map_cons, List.nodup_cons, List.mem_map, not_exists, not_and]
    tauto

theorem dispatchRowsWf_standardRows : dispatchRowsWf standardRows = true := by
  refine (dispatchRowsWf_iff _).2 ⟨fun row hrow => ?_, nodup_standardKeys⟩
  rw [← mem_standardRows_iff.1 hrow]
  exact (Machine.opcodeTable_row row.2).2

/-- Settles O22: a row found is an opcode whose bytes decode to it; where none is found, no opcode has the bytes. -/
theorem decodeProcedureIsDispatchTable : Obligations.DecodeProcedureIsDispatchTable := by
  intro bytes
  change standardRows.lookup bytes = decodeOpcode bytes
  cases hrows : standardRows.lookup bytes with
  | some i =>
    obtain ⟨before, after, hsplit, -⟩ := List.lookup_eq_some_iff.1 hrows
    have hrow : (bytes, i) ∈ standardRows := by simp [hsplit]
    exact (decodeOpcode_eq_some_iff.2 (mem_standardRows_iff.1 hrow)).symm
  | none =>
    refine (Option.eq_none_iff_forall_ne_some.2 fun i hi => ?_).symm
    have hrow : (bytes, i) ∈ standardRows := mem_standardRows_iff.2 (opcode_of_decodeOpcode hi)
    simpa using List.lookup_eq_none_iff.1 hrows _ hrow

/-- The operand bytes of a layout fill it up to its length (R73, R81). -/
theorem length_operandBytes {x : Asm} (h : x.wf = true) :
    x.instr.format.opcodeLength + x.operands.bytes.length = x.instr.length := by
  obtain ⟨i, operands⟩ := x
  obtain ⟨hf, rfl⟩ | ⟨hf, _, rfl⟩ | ⟨hf, _, rfl⟩ | ⟨hf, rfl⟩ | ⟨hf, _, rfl⟩ | ⟨hf, _, _, rfl⟩ := Asm.wf_cases h <;>
    simp [Instr.length, Operands.bytes, Format.opcodeLength, Format.length, hf]

theorem length_encode {x : Asm} (h : x.wf = true) : (encode x).length = x.instr.length := by
  obtain ⟨-, -, hlength⟩ := Machine.opcodeTable_row x.instr
  rw [encode, List.length_append, hlength, length_operandBytes h]

/-- Settles O23: the opcodes are listed once each and their bytes decode, so are distinct. -/
theorem dispatchTableAndLengths : Obligations.DispatchTableAndLengths := by
  refine ⟨rfl, nodup_standardKeys, dispatchRowsWf_standardRows, fun i => mem_standardRows_iff.2 rfl, fun x h => ?_⟩
  rw [length_encode h, Instr.length]
  cases x.instr.format <;> rfl

/-- Settles O24: the written-out words are entries of the opcode column. -/
theorem writtenOutWordsDecode : Obligations.WrittenOutWordsDecode :=
  ⟨decodeOpcode_opcode .ld_B_C, decodeOpcode_opcode .ld_A_L, decodeOpcode_opcode .ld_B_n,
    decodeOpcode_opcode .ld_E_atHL, decodeOpcode_opcode .ld_A_atBC, decodeOpcode_opcode .ld_A_atDE,
    decodeOpcode_opcode .ld_H_atIX, decodeOpcode_opcode .ld_A_atIY, decodeOpcode_opcode .ld_atHL_A,
    decodeOpcode_opcode .ld_atBC_A, decodeOpcode_opcode .ld_atDE_A, decodeOpcode_opcode .ld_atHL_n,
    decodeOpcode_opcode .ld_atIX_n, decodeOpcode_opcode .ld_atIY_n, decodeOpcode_opcode .ld_A_atnn,
    decodeOpcode_opcode .ld_atnn_A, decodeOpcode_opcode .ld_A_I, decodeOpcode_opcode .ld_A_R⟩

/-! ### Refusals (R82) -/

/-- Behind 0xDD or 0xFD a byte 01 110 sss with a register's code is no load. -/
theorem decodeOpcode_indexedStore (r : Reg8) :
    decodeOpcode [0xDD, byte01 0b110 (registerCode r)] = none ∧
      decodeOpcode [0xFD, byte01 0b110 (registerCode r)] = none := by
  cases r <;> decide

theorem decodeOpcode_cb (b1 : Byte) : decodeOpcode [0xCB, b1] = none := rfl

theorem decodeOpcode_extended {b1 : Byte} (hi : b1 ≠ 0x57) (hr : b1 ≠ 0x5F) : decodeOpcode [0xED, b1] = none := by
  change (decodeExtended b1).map Form.instr = none
  rw [decodeExtended, if_neg hi, if_neg hr, Option.map_none]

/-- Settles O25: the encodings with a free byte or register by the lemmas above, the fixed ones by decoding them. -/
theorem unadmittedEncodingsAreRefused : Obligations.UnadmittedEncodingsAreRefused :=
  ⟨by decide, by decide, by decide, decodeOpcode_cb, decodeOpcode_indexedStore,
    decodeOpcode_extended (by decide) (by decide), decodeOpcode_extended (by decide) (by decide),
    by decide, by decide, by decide, fun _ => decodeOpcode_extended⟩

end Sys2Proof
end

section
/-! The fetch of a decoded instruction, its resolution, refusal and faults, and the advance of PC (30_encoding.md R79,
R82; 40_engine.md R89, R91, R100; 60_exceptions.md R119). -/

namespace Sys2Proof.Machine

/-! ### Resolution and faults of the fetch -/

/-- Settles O27: the bytes the fetch looks up are `State.opcodeBytes`. -/
theorem stepResolvesOrRefuses : Obligations.StepResolvesOrRefuses := fun _ hfetch =>
  ⟨fun _ => stepRuns_of_lookup hfetch, step_of_no_lookup hfetch⟩

theorem step_fault_at_pc {s : State} (h : s.canAccess (s.readWord .pc) = false) :
    step s = .fault (.unmappedAccess (s.readWord .pc)) := by
  rw [step, fetchOpcode, busRead_eq, h, if_neg Bool.false_ne_true]

theorem step_fault_at_byte1 {s : State} (h0 : s.canAccess (s.readWord .pc) = true)
    (hp : isDecodedPrefix (s.instrByte 0) = true) (h1 : s.canAccess (s.readWord .pc + 1) = false) :
    step s = .fault (.unmappedAccess (s.readWord .pc + 1)) := by
  have hbyte : s.bus.read (s.readWord .pc) = s.instrByte 0 := by simp [State.instrByte]
  rw [step, fetchOpcode, busRead_eq, if_pos h0, hbyte, if_pos hp, busRead_eq, h1, if_neg Bool.false_ne_true]

/-- Settles O28: under FAULT_ON_UNMAPPED an uncovered byte is one the fetch may not access. -/
theorem uncoveredFetchFaults : Obligations.UncoveredFetchFaults := by
  intro s hfault
  simp only [← State.canAccess_of_faultOnUnmapped hfault]
  exact ⟨step_fault_at_pc, step_fault_at_byte1⟩

/-! ### PC -/

/-- Each of the three kinds of next state has PC behind the instruction (R91). -/
theorem readPC_afterForm (s : State) (f : Form) :
    (afterForm s f).readWord .pc = s.readWord .pc + BitVec.ofNat 16 f.format.length := by
  obtain ⟨r, v, -, h⟩ | ⟨a, v, -, h⟩ | ⟨v, -, -, hformat, h⟩ := afterForm_cases s f
  · rw [h, (loadEffect_afterLoad s _ _ v).pc]
  · rw [h, afterStore, State.readWord_writeWord_same]
  · rw [h, hformat, (interruptVectorEffect_afterVector s v).pc]
    rfl

/-- Settles O31: a next state is its form's. -/
theorem pcAdvancesByTheLength : Obligations.PCAdvancesByTheLength := by
  intro i s t h
  obtain ⟨rfl, -⟩ := exec_next h
  exact readPC_afterForm s i.form

/-! ### Running the decoded instruction -/

/-- Where the bytes at PC decode to an instruction, the fetch reads exactly its opcode (R79). -/
theorem opcodeBytes_of_decode {s : State} {x : Asm} {rest : List Byte}
    (h : decode [s.instrByte 0, s.instrByte 1, s.instrByte 2, s.instrByte 3] = .ok (x, rest)) :
    s.opcodeBytes = x.instr.opcode := by
  obtain ⟨i, operandBytes, hbytes, htake⟩ := decode_ok h
  obtain ⟨rfl, -⟩ := takeOperands_ok htake
  obtain ⟨b0, hop, hp⟩ | ⟨b0, b1, hop, hp⟩ := opcode_cases x.instr
  · rw [hop] at hbytes ⊢
    obtain ⟨h0, -⟩ := List.cons.inj hbytes
    rw [State.opcodeBytes, h0, hp, if_neg Bool.false_ne_true]
  · rw [hop] at hbytes ⊢
    obtain ⟨h0, htail⟩ := List.cons.inj hbytes
    obtain ⟨h1, -⟩ := List.cons.inj htail
    rw [State.opcodeBytes, h0, h1, hp, if_pos rfl]

theorem stepRuns_of_decode {s : State} {x : Asm} {rest : List Byte}
    (h : decode [s.instrByte 0, s.instrByte 1, s.instrByte 2, s.instrByte 3] = .ok (x, rest))
    (hdispatch : s.params.dispatch = .standard) (hfetch : s.canFetch) : StepRuns s x.instr.opcode x.instr := by
  have hbytes := opcodeBytes_of_decode h
  rw [← hbytes]
  exact stepRuns_of_lookup hfetch (by rw [hdispatch, hbytes]; exact decodeOpcode_opcode x.instr)

/-- Settles O26: the opcode at the front of the decoded bytes is the one the fetch looks up. -/
theorem stepRunsTheDecodedInstruction : Obligations.StepRunsTheDecodedInstruction := fun _ _ _ =>
  stepRuns_of_decode

/-! ### A table word placed at PC -/

theorem tableWordBytes_eq (nbits w : Nat) : ∃ b0 b1 b2 b3, tableWordBytes nbits w = [b0, b1, b2, b3] := by
  unfold tableWordBytes
  dsimp only
  split_ifs
  · exact ⟨_, _, _, _, rfl⟩
  · exact ⟨_, _, _, _, rfl⟩

/-- The fetch may access the placed word and reads its bytes (log 14). -/
theorem withFetchWord_fetches {s : State} (hw : s.bus.wf = true) (nbits w : Nat) :
    let s' := s.withFetchWord nbits w
    [s'.instrByte 0, s'.instrByte 1, s'.instrByte 2, s'.instrByte 3] = tableWordBytes nbits w ∧ s'.canFetch := by
  obtain ⟨b0, b1, b2, b3, hbytes⟩ := tableWordBytes_eq nbits w
  obtain ⟨r0, r1, r2, r3, c0, c1, -⟩ := Bus.placeBytes_four hw (s.readWord .pc) b0 b1 b2 b3
  rw [← hbytes] at r0 r1 r2 r3 c0 c1
  have e0 : s.readWord .pc + 0 = s.readWord .pc := by simp
  have hcan : ∀ a, (s.withFetchWord nbits w).bus.covers a = true → (s.withFetchWord nbits w).canAccess a = true :=
    fun a ha => by rw [State.canAccess, ha, Bool.or_true]
  refine ⟨?_, hcan _ c0, fun _ => hcan _ c1⟩
  rw [hbytes]
  simp only [State.instrByte, State.withFetchWord, State.readWord_withBus, State.withBus_bus, e0, r0, r1, r2, r3]

theorem decodeTableWord_eq_some {nbits w : Nat} {i : Instr} (h : decodeTableWord nbits w = some i) :
    ∃ x rest, decode (tableWordBytes nbits w) = .ok (x, rest) ∧ x.instr = i := by
  unfold decodeTableWord at h
  split at h
  next hdecode => exact ⟨_, _, hdecode, Option.some.inj h⟩
  next => cases h

/-- Settles O41: the placed bytes are those the word decodes from, and the placing changes the Bus only. -/
theorem fetchWordRunsTheTableInstruction : Obligations.FetchWordRunsTheTableInstruction := by
  intro s nbits w i hs hdispatch hword
  obtain ⟨x, rest, hdecode, rfl⟩ := decodeTableWord_eq_some hword
  obtain ⟨hbytes, hfetch⟩ := withFetchWord_fetches hs.components nbits w
  exact ⟨stepRuns_of_decode (hbytes ▸ hdecode) hdispatch hfetch, rfl, rfl, rfl, rfl, rfl⟩

end Sys2Proof.Machine
end

section
/-! What the costs influence (40_engine.md R93, R94; R141): the total T, and nothing else. An instruction commutes
with any change of T and of the cost table; a step, a host action and a run from two states that differ only there
answer results that differ only there. -/

namespace Sys2Proof.Machine

/-! ### Another cost table and another T -/

/-- `s` with the cost table `table` and the total `n`. -/
def State.recost (table : List (List Byte × Nat)) (n : Nat) (s : State) : State :=
  { s with total := n, params := { s.params with cycleOverrides := table } }

theorem sameButCycles_recost (table : List (List Byte × Nat)) (n : Nat) (s : State) :
    SameButCycles s (s.recost table n) := ⟨rfl, rfl, rfl, rfl, rfl, rfl, rfl⟩

/-- A state that differs only in T and in the cost table is the other one, recosted. -/
theorem SameButCycles.eq_recost {s s' : State} (h : SameButCycles s s') :
    ∃ table n, s' = s.recost table n := by
  obtain ⟨regs', iff1', iff2', bus', total', ⟨strict', fault', table', dispatch'⟩⟩ := s'
  obtain ⟨rfl, rfl, rfl, rfl, rfl, rfl, rfl⟩ := h
  exact ⟨table', total', rfl⟩

/-- Adding to T on either side keeps two states the same but for it (R94). -/
theorem SameButCycles.addCycles {s s' : State} (h : SameButCycles s s') (n n' : Nat) :
    SameButCycles (s.addCycles n) (s'.addCycles n') := { h with }

/-- Results that are the same but for T and the cost table are two next states or one stop. -/
theorem ResultsSameButCycles.cases {r r' : Result} (h : ResultsSameButCycles r r') :
    (∃ t t', r = .next t ∧ r' = .next t' ∧ SameButCycles t t') ∨ (∃ f, r = .fault f ∧ r' = .fault f) ∨
      ∃ q, r = .refused q ∧ r' = .refused q := by
  cases r <;> cases r'
  case next.next t t' => exact .inl ⟨t, t', rfl, rfl, h⟩
  case fault.fault f f' => exact .inr (.inl ⟨f, rfl, congrArg _ (Eq.symm h)⟩)
  case refused.refused q q' => exact .inr (.inr ⟨q, rfl, congrArg _ (Eq.symm h)⟩)
  all_goals exact h.elim

section
variable (table : List (List Byte × Nat)) (n : Nat)

/-! ### An instruction -/

@[simp] theorem State.recost_iff2 (s : State) : (s.recost table n).iff2 = s.iff2 := rfl

theorem State.putFlag_recost (s : State) (f : Flag) (v : Bool) :
    (s.recost table n).putFlag f v = (s.putFlag f v).recost table n := by
  cases v with
  | false => rfl
  | true => rfl

theorem afterVector_recost (s : State) (v : Byte) :
    afterVector (s.recost table n) v = (afterVector s v).recost table n := by
  have hload : ((s.recost table n).writeWord .pc ((s.recost table n).readWord .pc + 2)).writeByte .a v =
      ((s.writeWord .pc (s.readWord .pc + 2)).writeByte .a v).recost table n := rfl
  simp only [afterVector, State.putInterruptVectorFlags, hload, State.putFlag_recost, State.recost_iff2]

theorem afterForm_recost (s : State) (f : Form) : afterForm (s.recost table n) f = (afterForm s f).recost table n := by
  cases f with
  | ldAI => exact afterVector_recost table n s _
  | ldAR => exact afterVector_recost table n s _
  | _ => rfl

/-- A change of both states that keeps the first one's access checks carries over to the guarded result. -/
theorem guarded_mapNext {g : State → State} {s : State} (hg : ∀ a, (g s).canAccess a = s.canAccess a) (t : State)
    (l : List Word) : guarded (g s) (g t) l = mapNext g (guarded s t l) := by
  induction l with
  | nil => rfl
  | cons a rest ih =>
    rw [guarded, guarded, hg, ih]
    split
    · rfl
    · rfl

theorem accesses_recost (i : Instr) (s : State) : accesses i (s.recost table n) = accesses i s := by
  unfold accesses
  cases i.form <;> rfl

/-- An instruction neither reads nor writes T or the cost table. -/
theorem exec_recost (i : Instr) (s : State) :
    exec i (s.recost table n) = mapNext (State.recost table n) (exec i s) := by
  rw [exec_eq_guarded, accesses_recost, afterForm_recost, guarded_mapNext (fun _ => rfl), ← exec_eq_guarded]

end

/-! ### A step -/

/-- Two entries of one instruction, whatever they cost, leave states that differ in T and in the cost table only. -/
theorem accumulate_invoke_sameButCycles {s s' : State} (h : SameButCycles s s') {e e' : DispatchEntry}
    (he : e'.instr = e.instr) : ResultsSameButCycles (accumulate (invoke e s)) (accumulate (invoke e' s')) := by
  obtain ⟨table, n, rfl⟩ := h.eq_recost
  rw [accumulate_invoke, accumulate_invoke, he, exec_recost]
  cases exec e.instr s with
  | next t => exact (sameButCycles_recost table n t).addCycles e.cycles e'.cycles
  | fault f => rfl
  | refused q => rfl

theorem busRead_sameButCycles {s s' : State} (h : SameButCycles s s') {a : Word} {k k' : Byte → Result}
    (hk : ∀ b, ResultsSameButCycles (k b) (k' b)) : ResultsSameButCycles (busRead s a k) (busRead s' a k') := by
  have hcan : s'.canAccess a = s.canAccess a := by rw [State.canAccess, h.faultOnUnmapped, h.bus, State.canAccess]
  rw [busRead_eq, busRead_eq, hcan, h.bus]
  split
  · exact hk _
  · rfl

/-- The same bytes resolve to the same instruction, or are refused in both states (R82, R89). -/
theorem resolve_sameButCycles {s s' : State} (h : SameButCycles s s') {bytes : List Byte}
    {k k' : DispatchEntry → Result} (hk : ∀ e e', e'.instr = e.instr → ResultsSameButCycles (k e) (k' e')) :
    ResultsSameButCycles (resolve s bytes k) (resolve s' bytes k') := by
  unfold resolve dispatchEntry
  rw [h.dispatch]
  cases dispatchLookup s.params.dispatch bytes with
  | none => rfl
  | some i => exact hk _ _ rfl

theorem fetchOpcode_sameButCycles {s s' : State} (h : SameButCycles s s') {k k' : DispatchEntry → Result}
    (hk : ∀ e e', e'.instr = e.instr → ResultsSameButCycles (k e) (k' e')) :
    ResultsSameButCycles (fetchOpcode s k) (fetchOpcode s' k') := by
  have hpc : s'.readWord .pc = s.readWord .pc := by rw [State.readWord, h.regs, State.readWord]
  unfold fetchOpcode
  rw [hpc]
  refine busRead_sameButCycles h fun b0 => ?_
  split
  · exact busRead_sameButCycles h fun b1 => resolve_sameButCycles h hk
  · exact resolve_sameButCycles h hk

theorem step_sameButCycles {s s' : State} (h : SameButCycles s s') : ResultsSameButCycles (step s) (step s') :=
  fetchOpcode_sameButCycles h fun _ _ he => accumulate_invoke_sameButCycles h he

/-! ### A run -/

/-- No host action reads T or the cost table; one sets T, to the same value in both states (R94, R97). -/
theorem hostAct_sameButCycles {s s' : State} (h : SameButCycles s s') (action : HostAction) :
    SameButCycles (hostAct s action) (hostAct s' action) := by
  obtain ⟨table, n, rfl⟩ := h.eq_recost
  cases action with
  | setFlag f value =>
    have hflag : hostAct (s.recost table n) (.setFlag f value) = (hostAct s (.setFlag f value)).recost table n :=
      s.putFlag_recost table n f (!value)
    rw [hflag]
    exact sameButCycles_recost table n _
  | startRun => exact sameButCycles_recost table 0 { s with total := 0 }
  | _ => exact sameButCycles_recost table n _

/-- Settles O38, by induction on the inputs: each keeps the two states the same but for T and the cost table, or ends
both runs alike. -/
theorem costsInfluenceNoState : Obligations.CostsInfluenceNoState := by
  intro inputs
  induction inputs with
  | nil => exact fun _ _ h => h
  | cons input rest ih =>
    intro s s' h
    cases input with
    | host action => exact ih _ _ (hostAct_sameButCycles h action)
    | instruction =>
      unfold runInputs
      obtain ⟨t, t', hs, hs', ht⟩ | ⟨f, hs, hs'⟩ | ⟨q, hs, hs'⟩ := (step_sameButCycles h).cases
      · rw [hs, hs']; exact ih t t' ht
      · rw [hs, hs']; rfl
      · rw [hs, hs']; rfl

/-- Settles O37: each clause on a longer run is `runInputs_append` at the first run's outcome. -/
theorem runEndsAtFirstStop : Obligations.RunEndsAtFirstStop := by
  intro first later s
  refine ⟨runInputs_nil s, runInputs_instruction s, runInputs_host s, fun r hr => ?_, fun f hf => ?_, fun t ht => ?_⟩
  · rw [runInputs_append, hr]
  · rw [runInputs_append, hf]
  · rw [runInputs_append, ht]

end Sys2Proof.Machine
end

section
/-! The register and immediate loads (41_ld8_register.md R101, R102). -/

namespace Sys2Proof.Machine

/-! ### The opcode of a form -/

/-- A form's opcode completes where its operand bytes and its data access are allowed (R118). -/
theorem exec_instr {f : Form} {s : State}
    (hoperands : ∀ k ∈ operandOffsets f.format, s.canAccess (s.readWord .pc + k) = true)
    (hdata : ∀ a ∈ dataAddress s f, s.canAccess a = true) : exec f.instr s = .next (afterForm s f) := by
  have hall : ∀ a ∈ accesses f.instr s, s.canAccess a = true := by
    rw [accesses, Instr.format, Form.instr_form]
    intro a ha
    obtain hoperand | ha := List.mem_append.1 ha
    · obtain ⟨k, hk, rfl⟩ := List.mem_map.1 hoperand
      exact hoperands k hk
    · exact hdata a (Option.mem_toList.1 ha)
  rw [exec_of_accesses hall, Form.instr_form]

/-! ### The two families -/

/-- LD r,r' has no access behind its opcode. -/
theorem exec_ldRR (r r' : Reg8) (s : State) :
    exec (Form.ldRR r r').instr s = .next (afterLoad s 1 (byteRegOf r) (s.readByte (byteRegOf r'))) :=
  exec_instr (f := .ldRR r r') (fun _ hk => absurd hk List.not_mem_nil) fun _ ha => nomatch ha

/-- LD r,n reads its operand byte at p+1 and has no data access (R76). -/
theorem exec_ldRN {s : State} (h : s.canAccess (s.readWord .pc + 1) = true) (r : Reg8) :
    exec (Form.ldRN r).instr s = .next (afterLoad s 2 (byteRegOf r) (s.bus.read (s.readWord .pc + 1))) :=
  exec_instr (f := .ldRN r) (fun _ hk => List.mem_singleton.1 hk ▸ h) fun _ ha => nomatch ha

/-- Settles O42: the opcode column gives the bytes, and the state a load leaves has the effect and the frame. -/
theorem ldRegisterRegister : Obligations.LdRegisterRegister := fun r r' s =>
  ⟨decodeOpcode_eq_some_iff.2 (opcode_ldRR r r'), rfl, _, exec_ldRR r r' s, loadEffect_afterLoad s 1 _ _⟩

/-- Settles O43: as O42, with the operand byte at p+1 as the value. -/
theorem ldRegisterImmediate : Obligations.LdRegisterImmediate := fun r s h =>
  ⟨decodeOpcode_eq_some_iff.2 (opcode_ldRN r), rfl, _, exec_ldRN h r, loadEffect_afterLoad s 2 _ _⟩

end Sys2Proof.Machine
end

section
/-! The indirect and indexed loads (42_ld8_indirect_indexed_load.md R103 to R107). -/

namespace Sys2Proof.Machine

/-! ### The opcodes with one data access -/

/-- An opcode of layout A reads no operand byte: it completes where its data access is allowed (R73, R118). -/
theorem exec_fmtA {f : Form} {s : State} {a : Word} (hformat : f.format = .fmtA) (haddress : dataAddress s f = some a)
    (h : s.canAccess a = true) : exec f.instr s = .next (afterForm s f) := by
  refine exec_instr (fun k hk => ?_) fun b hb => ?_
  · rw [hformat] at hk
    exact absurd hk List.not_mem_nil
  · rw [haddress] at hb
    exact Option.mem_some.1 hb ▸ h

/-- An opcode of layout E completes where the displacement byte at p+2 and the data access are allowed (R77, R118). -/
theorem exec_fmtE {f : Form} {s : State} {a : Word} (hformat : f.format = .fmtE) (haddress : dataAddress s f = some a)
    (hd : s.canAccess (s.readWord .pc + 2) = true) (h : s.canAccess a = true) :
    exec f.instr s = .next (afterForm s f) := by
  refine exec_instr (fun k hk => ?_) fun b hb => ?_
  · rw [hformat] at hk
    exact List.mem_singleton.1 hk ▸ hd
  · rw [haddress] at hb
    exact Option.mem_some.1 hb ▸ h

/-- The address of (IX+d) and (IY+d) is the index register plus the sign-extended byte at p+2 (R77). -/
theorem State.indexedOperand_eq (s : State) (w : WordReg) :
    s.indexedOperand w = s.readWord w + (s.bus.read (s.readWord .pc + 2)).signExtend 16 := rfl

/-! ### The five families -/

/-- Settles O44: the data access is at HL, and the byte read there is what the load's state holds in r. -/
theorem ldRegisterFromHL : Obligations.LdRegisterFromHL := fun r s h =>
  ⟨decodeOpcode_eq_some_iff.2 (opcode_ldRHL r), rfl, _, exec_fmtA (f := .ldRHL r) rfl rfl h,
    loadEffect_afterLoad s 1 _ _⟩

/-- Settles O45: as O44, at BC. -/
theorem ldAFromBC : Obligations.LdAFromBC := fun s h =>
  ⟨decodeOpcode_opcode .ld_A_atBC, rfl, _, exec_fmtA (f := .ldABC) rfl rfl h, loadEffect_afterLoad s 1 _ _⟩

/-- Settles O46: as O44, at DE. -/
theorem ldAFromDE : Obligations.LdAFromDE := fun s h =>
  ⟨decodeOpcode_opcode .ld_A_atDE, rfl, _, exec_fmtA (f := .ldADE) rfl rfl h, loadEffect_afterLoad s 1 _ _⟩

/-- Settles O47: the displacement byte is at p+2 and the data access at the indexed address of IX. -/
theorem ldRegisterFromIX : Obligations.LdRegisterFromIX := by
  intro r s a hd h
  have ha : a = s.indexedOperand .ix := (s.indexedOperand_eq .ix).symm
  rw [ha] at h ⊢
  exact ⟨decodeOpcode_eq_some_iff.2 (opcode_ldRIX r), rfl, _, exec_fmtE (f := .ldRIX r) rfl rfl hd h,
    loadEffect_afterLoad s 3 _ _⟩

/-- Settles O48: as O47, at the indexed address of IY. -/
theorem ldRegisterFromIY : Obligations.LdRegisterFromIY := by
  intro r s a hd h
  have ha : a = s.indexedOperand .iy := (s.indexedOperand_eq .iy).symm
  rw [ha] at h ⊢
  exact ⟨decodeOpcode_eq_some_iff.2 (opcode_ldRIY r), rfl, _, exec_fmtE (f := .ldRIY r) rfl rfl hd h,
    loadEffect_afterLoad s 3 _ _⟩

end Sys2Proof.Machine
end

section
/-! The stores, indirect and indexed (43_ld8_store.md R108 to R113). -/

namespace Sys2Proof.Machine

/-! ### The opcodes that store -/

/-- The one data access of a store is at the address it stores at (R61). -/
theorem dataAddress_of_storedBy {s : State} {f : Form} {a : Word} {v : Byte} (h : storedBy s f = some (a, v)) :
    dataAddress s f = some a := by
  cases f <;> cases h <;> rfl

theorem afterForm_of_storedBy {s : State} {f : Form} {a : Word} {v : Byte} (h : storedBy s f = some (a, v)) :
    afterForm s f = afterStore s (BitVec.ofNat 16 f.format.length) a v := by
  obtain ⟨_, _, hnone, -⟩ | ⟨b, w, hsome, hafter⟩ | ⟨_, hnone, -⟩ := afterForm_cases s f
  · cases h.symm.trans hnone
  · cases h.symm.trans hsome
    exact hafter
  · cases h.symm.trans hnone

/-- A store completes with its effect and frame where its operand bytes and the address it stores at may be accessed
(R108 to R113, R115, R118). The effect's read-back needs the canonical stores of the invariant. -/
theorem exec_store {s : State} (hs : s.Inv) {f : Form} {a : Word} {v : Byte} (hstored : storedBy s f = some (a, v))
    (hoperands : ∀ k ∈ operandOffsets f.format, s.canAccess (s.readWord .pc + k) = true)
    (h : s.canAccess a = true) :
    ∃ t, exec f.instr s = .next t ∧ StoreEffect s t (BitVec.ofNat 16 f.format.length) a v := by
  have hdata : ∀ b ∈ dataAddress s f, s.canAccess b = true := by
    rw [dataAddress_of_storedBy hstored]
    exact fun b hb => Option.mem_some.1 hb ▸ h
  have hexec := exec_instr hoperands hdata
  rw [afterForm_of_storedBy hstored] at hexec
  exact ⟨_, hexec, storeEffect_afterStore hs.components _ a v⟩

/-! ### The six families -/

/-- Settles O49: no operand byte is read, and x[r] is stored at HL. -/
theorem storeRegisterAtHL : Obligations.StoreRegisterAtHL := fun r _ hs h =>
  ⟨decodeOpcode_eq_some_iff.2 (opcode_ldHLR r), rfl, exec_store hs (f := .ldHLR r) rfl (List.forall_mem_nil _) h⟩

/-- Settles O50: no operand byte is read, and A is stored at BC. -/
theorem storeAAtBC : Obligations.StoreAAtBC := fun _ hs h =>
  ⟨decodeOpcode_opcode .ld_atBC_A, rfl, exec_store hs (f := .ldBCA) rfl (List.forall_mem_nil _) h⟩

/-- Settles O51: no operand byte is read, and A is stored at DE. -/
theorem storeAAtDE : Obligations.StoreAAtDE := fun _ hs h =>
  ⟨decodeOpcode_opcode .ld_atDE_A, rfl, exec_store hs (f := .ldDEA) rfl (List.forall_mem_nil _) h⟩

/-- Settles O52: the one operand byte is n at p+1, stored at HL. -/
theorem storeImmediateAtHL : Obligations.StoreImmediateAtHL := fun _ hs hn h =>
  ⟨decodeOpcode_opcode .ld_atHL_n, rfl, exec_store hs (f := .ldHLN) rfl (List.forall_mem_singleton.2 hn) h⟩

/-- Settles O53: the operand bytes are d at p+2 and n at p+3, and n is stored at the indexed address of IX. -/
theorem storeImmediateAtIX : Obligations.StoreImmediateAtIX := by
  intro s a hs hd hn h
  exact ⟨decodeOpcode_opcode .ld_atIX_n, rfl,
    exec_store hs (f := .ldIXN) rfl (List.forall_mem_cons.2 ⟨hd, List.forall_mem_singleton.2 hn⟩) h⟩

/-- Settles O54: as O53, at the indexed address of IY. -/
theorem storeImmediateAtIY : Obligations.StoreImmediateAtIY := by
  intro s a hs hd hn h
  exact ⟨decodeOpcode_opcode .ld_atIY_n, rfl,
    exec_store hs (f := .ldIYN) rfl (List.forall_mem_cons.2 ⟨hd, List.forall_mem_singleton.2 hn⟩) h⟩

end Sys2Proof.Machine
end

section
/-! The load and the store at a direct address (44_ld8_direct.md R114, R115). -/

namespace Sys2Proof.Machine

/-! ### The direct address -/

/-- The address nn, read byte by byte at p+1 and p+2, is the little-endian Bus word at p+1 (R55, R78). -/
theorem State.directAddress_eq (s : State) : s.directAddress = s.bus.readWord (s.readWord .pc + 1) := by
  have hnext : s.readWord .pc + 1 + 1 = s.readWord .pc + 2 := BitVec.add_assoc _ 1 1
  rw [Bus.readWord, hnext, State.directAddress, State.instrByte, State.instrByte]

/-- The operand bytes of layout C are at p+1 and p+2 (R78). -/
theorem canAccess_operands_fmtC {s : State} (h1 : s.canAccess (s.readWord .pc + 1) = true)
    (h2 : s.canAccess (s.readWord .pc + 2) = true) :
    ∀ k ∈ operandOffsets .fmtC, s.canAccess (s.readWord .pc + k) = true :=
  List.forall_mem_cons.2 ⟨h1, List.forall_mem_singleton.2 h2⟩

/-! ### The two instructions -/

/-- LD A,(nn) completes where its operand bytes and nn may be accessed, with the byte at nn loaded into A (R114). -/
theorem exec_ldANN {s : State} (h1 : s.canAccess (s.readWord .pc + 1) = true)
    (h2 : s.canAccess (s.readWord .pc + 2) = true) (h : s.canAccess s.directAddress = true) :
    exec .ld_A_atnn s = .next (afterLoad s 3 .a (s.bus.read s.directAddress)) :=
  exec_instr (f := .ldANN) (canAccess_operands_fmtC h1 h2) fun _ ha => Option.mem_some.1 ha ▸ h

/-- Settles O55: the data access is at the word at p+1, and the byte read there is what the load's state holds in A. -/
theorem ldAFromDirect : Obligations.LdAFromDirect := by
  intro s nn h1 h2 h
  have hnn : nn = s.directAddress := s.directAddress_eq.symm
  rw [hnn] at h ⊢
  exact ⟨decodeOpcode_opcode .ld_A_atnn, rfl, _, exec_ldANN h1 h2 h, loadEffect_afterLoad s 3 _ _⟩

/-- Settles O56: the operand bytes are those of nn, and A is stored at nn, the word at p+1. -/
theorem storeAAtDirect : Obligations.StoreAAtDirect := by
  intro s nn hs h1 h2 h
  have hnn : nn = s.directAddress := s.directAddress_eq.symm
  rw [hnn] at h ⊢
  exact ⟨decodeOpcode_opcode .ld_atnn_A, rfl,
    exec_store hs (f := .ldNNA) rfl (canAccess_operands_fmtC h1 h2) h⟩

end Sys2Proof.Machine
end

section
/-! The loads of A from I and from R (45_ld8_interrupt_vector.md R116, R117). -/

namespace Sys2Proof.Machine

/-- An opcode of layout D has neither an operand byte nor a data access, so it completes in every state (R73, R118). -/
theorem exec_fmtD {f : Form} (s : State) (hformat : f.format = .fmtD) (haddress : dataAddress s f = none) :
    exec f.instr s = .next (afterForm s f) := by
  refine exec_instr (fun k hk => ?_) fun b hb => ?_
  · rw [hformat] at hk
    exact absurd hk List.not_mem_nil
  · rw [haddress] at hb
    exact absurd hb (Option.not_mem_none b)

/-- Settles O57: the value is I, and the state a vector load leaves has the flags and the frame. -/
theorem ldAFromI : Obligations.LdAFromI := fun s =>
  ⟨decodeOpcode_opcode .ld_A_I, rfl, _, exec_fmtD (f := .ldAI) s rfl rfl, interruptVectorEffect_afterVector s _⟩

/-- Settles O58: as O57, with R as the value. -/
theorem ldAFromR : Obligations.LdAFromR := fun s =>
  ⟨decodeOpcode_opcode .ld_A_R, rfl, _, exec_fmtD (f := .ldAR) s rfl rfl, interruptVectorEffect_afterVector s _⟩

end Sys2Proof.Machine
end
